-- ==== Sys2Proof/Word.lean ====
section
/-! DEFINITION. The machine's words: byte, word, address and nibble, the sixteen register numbers and the sixteen
keys. Every value is unsigned (00_scope.md R17); the widths are those of 00_scope.md R15. -/

namespace Sys2Proof

/-- One byte of memory, one general register, one timer (00_scope.md R15). -/
abbrev Byte := BitVec 8

/-- An opcode, `PC`, `I` and a call-stack entry (00_scope.md R15). -/
abbrev Word := BitVec 16

/-- The field `nnn` (30_encoding.md R71). -/
abbrev Addr12 := BitVec 12

/-- A 4-bit group of an opcode; the field `n` (30_encoding.md R71). -/
abbrev Nibble := BitVec 4

/-- A register number 0 to 15, the fields `x` and `y` (10_state.md R22, 30_encoding.md R72). -/
abbrev Reg := Fin 16

/-- A key symbol 0x0 to 0xF (10_state.md R34). -/
abbrev Key := Fin 16

/-- `VF`, the sixteenth general register and the flag register (10_state.md R23). -/
abbrev VF : Reg := 15

/-- A Boolean as a byte, the `(p ? 1 : 0)` of 00_scope.md R17. -/
def boolByte (p : Bool) : Byte := if p then 1#8 else 0#8

/-- `zext_16` of an 8-bit value (00_scope.md R17). -/
abbrev zext16 (b : Byte) : Word := b.setWidth 16

/-- `zext_16` of a 12-bit address field (00_scope.md R17). -/
abbrev zextAddr (a : Addr12) : Word := a.setWidth 16

end Sys2Proof
end

