-- ==== Sys2Proof/Config.lean ====
section
/-! DEFINITION. What an implementation fixes (00_scope.md R6 to R14), as plain data that State holds, the constants
whose one value the spec gives (R8, R10), and the one free value of the machine, the random byte of `Cxnn`. -/

namespace Sys2Proof

/-- The configuration of a machine, chosen when it is built and fixed for the run (00_scope.md section 4,
10_state.md R21, R31). -/
structure Config where
  /-- `MEM_CAPACITY`: bytes of memory (00_scope.md R6). -/
  memCapacity : Nat
  /-- `STACK_DEPTH`: the most entries of the call stack (00_scope.md R7). -/
  stackDepth : Nat
  /-- `FONT_BASE`, the source's `sprite_base` (00_scope.md R9). -/
  fontBase : Nat
  /-- `DISPLAY_WIDTH` in cells, OPEN in the spec (00_scope.md R11). -/
  displayWidth : Nat
  /-- `DISPLAY_HEIGHT` in cells, OPEN in the spec (00_scope.md R11). -/
  displayHeight : Nat
  /-- `quirk_shift_uses_vy` (00_scope.md R12). -/
  shiftUsesVy : Bool
  /-- `quirk_sprite_wraps` (00_scope.md R13). -/
  spriteWraps : Bool
  /-- `fx0a_consumes_key`, OPEN in the spec (00_scope.md R14). -/
  consumesKey : Bool
  deriving DecidableEq, Repr

/-- `ROM_BASE`: where the program is loaded and where `PC` starts (00_scope.md R8). -/
def Config.romBase : Nat := 0x200

/-- `SPRITE_HEIGHT`: bytes of one font glyph (00_scope.md R10). -/
def Config.spriteHeight : Nat := 5

/-- The configuration of `State.reset`: the spec's defaults (00_scope.md R6, R7, R9, R12, R13).
PRESUMED (log 5): 64 by 32 cells, the customary screen. DESIGN CHOICE (log 6): `Fx0A` leaves the pressed set.
Both are OPEN in the spec; unsafe only for a statement about `State.reset` itself. -/
def Config.default : Config where
  memCapacity := 4096
  stackDepth := 16
  fontBase := 0x000
  displayWidth := 64
  displayHeight := 32
  shiftUsesVy := true
  spriteWraps := false
  consumesKey := false

/-- `draw_byte()`: the free draw of `Cxnn` (43_alu.md R142, 92_eei_decisions.md D19), the n-th byte drawn.
It has no body: nothing can be proved of its values, so a claim holds for every byte drawn (log 8; safe). -/
opaque Config.randomByte : Nat → Byte

end Sys2Proof
end

