-- ==== Sys2Proof/WellFormed.lean ====
section
/-! DEFINITION. What is well formed: an instruction (each operand within its field, 30_encoding.md R71, R72), a word
(it matches a row of the opcode table, 30_encoding.md R73) and a configuration (00_scope.md R6, R11). -/

namespace Sys2Proof

/-- A value fits an unsigned field of `w` bits (30_encoding.md R72). -/
def fitsField (v w : Nat) : Bool := decide (v < 2 ^ w)

/-- Every operand of the instruction fits its field (30_encoding.md R71, R72). The operand types have exactly the
fields' widths, so every term of `Instr` passes; the check is stated so that it can be read beside R71. -/
def Instr.wellFormed : Instr → Bool
  | .cls => true
  | .ret => true
  | .jp nnn => fitsField nnn.toNat 12
  | .call nnn => fitsField nnn.toNat 12
  | .seByte x nn => fitsField x.val 4 && fitsField nn.toNat 8
  | .sneByte x nn => fitsField x.val 4 && fitsField nn.toNat 8
  | .seReg x y => fitsField x.val 4 && fitsField y.val 4
  | .ldByte x nn => fitsField x.val 4 && fitsField nn.toNat 8
  | .addByte x nn => fitsField x.val 4 && fitsField nn.toNat 8
  | .ldReg x y => fitsField x.val 4 && fitsField y.val 4
  | .orReg x y => fitsField x.val 4 && fitsField y.val 4
  | .andReg x y => fitsField x.val 4 && fitsField y.val 4
  | .xorReg x y => fitsField x.val 4 && fitsField y.val 4
  | .addReg x y => fitsField x.val 4 && fitsField y.val 4
  | .subReg x y => fitsField x.val 4 && fitsField y.val 4
  | .shr x y => fitsField x.val 4 && fitsField y.val 4
  | .subn x y => fitsField x.val 4 && fitsField y.val 4
  | .shl x y => fitsField x.val 4 && fitsField y.val 4
  | .sneReg x y => fitsField x.val 4 && fitsField y.val 4
  | .ldI nnn => fitsField nnn.toNat 12
  | .jpV0 nnn => fitsField nnn.toNat 12
  | .rnd x nn => fitsField x.val 4 && fitsField nn.toNat 8
  | .drw x y n => fitsField x.val 4 && fitsField y.val 4 && fitsField n.toNat 4
  | .skp x => fitsField x.val 4
  | .sknp x => fitsField x.val 4
  | .ldVxDt x => fitsField x.val 4
  | .ldVxK x => fitsField x.val 4
  | .ldDtVx x => fitsField x.val 4
  | .ldStVx x => fitsField x.val 4
  | .addI x => fitsField x.val 4
  | .ldF x => fitsField x.val 4
  | .ldB x => fitsField x.val 4
  | .stRegs x => fitsField x.val 4
  | .ldRegs x => fitsField x.val 4

/-- One row of the opcode table: the literal bits and the mask of the bits that are literal
(30_encoding.md R73, columns "match" and "mask"). -/
structure OpcodeRow where
  bits : Word
  mask : Word
  deriving DecidableEq, Repr

/-- "A word `op` matches a row when `op & mask = match`" (30_encoding.md R73). -/
def OpcodeRow.covers (r : OpcodeRow) (op : Word) : Bool := (op &&& r.mask) == r.bits

/-- The row of 30_encoding.md R73 that each instruction stands in. -/
def Instr.row : Instr → OpcodeRow
  | .cls => ⟨0x00E0, 0xFFFF⟩
  | .ret => ⟨0x00EE, 0xFFFF⟩
  | .jp _ => ⟨0x1000, 0xF000⟩
  | .call _ => ⟨0x2000, 0xF000⟩
  | .seByte _ _ => ⟨0x3000, 0xF000⟩
  | .sneByte _ _ => ⟨0x4000, 0xF000⟩
  | .seReg _ _ => ⟨0x5000, 0xF00F⟩
  | .ldByte _ _ => ⟨0x6000, 0xF000⟩
  | .addByte _ _ => ⟨0x7000, 0xF000⟩
  | .ldReg _ _ => ⟨0x8000, 0xF00F⟩
  | .orReg _ _ => ⟨0x8001, 0xF00F⟩
  | .andReg _ _ => ⟨0x8002, 0xF00F⟩
  | .xorReg _ _ => ⟨0x8003, 0xF00F⟩
  | .addReg _ _ => ⟨0x8004, 0xF00F⟩
  | .subReg _ _ => ⟨0x8005, 0xF00F⟩
  | .shr _ _ => ⟨0x8006, 0xF00F⟩
  | .subn _ _ => ⟨0x8007, 0xF00F⟩
  | .shl _ _ => ⟨0x800E, 0xF00F⟩
  | .sneReg _ _ => ⟨0x9000, 0xF00F⟩
  | .ldI _ => ⟨0xA000, 0xF000⟩
  | .jpV0 _ => ⟨0xB000, 0xF000⟩
  | .rnd _ _ => ⟨0xC000, 0xF000⟩
  | .drw _ _ _ => ⟨0xD000, 0xF000⟩
  | .skp _ => ⟨0xE09E, 0xF0FF⟩
  | .sknp _ => ⟨0xE0A1, 0xF0FF⟩
  | .ldVxDt _ => ⟨0xF007, 0xF0FF⟩
  | .ldVxK _ => ⟨0xF00A, 0xF0FF⟩
  | .ldDtVx _ => ⟨0xF015, 0xF0FF⟩
  | .ldStVx _ => ⟨0xF018, 0xF0FF⟩
  | .addI _ => ⟨0xF01E, 0xF0FF⟩
  | .ldF _ => ⟨0xF029, 0xF0FF⟩
  | .ldB _ => ⟨0xF033, 0xF0FF⟩
  | .stRegs _ => ⟨0xF055, 0xF0FF⟩
  | .ldRegs _ => ⟨0xF065, 0xF0FF⟩

/-- The opcode table of 30_encoding.md R73, in its order. -/
def opcodeTable : List OpcodeRow :=
  [⟨0x00E0, 0xFFFF⟩, ⟨0x00EE, 0xFFFF⟩, ⟨0x1000, 0xF000⟩, ⟨0x2000, 0xF000⟩, ⟨0x3000, 0xF000⟩, ⟨0x4000, 0xF000⟩, ⟨0x5000, 0xF00F⟩, ⟨0x6000, 0xF000⟩, ⟨0x7000, 0xF000⟩, ⟨0x8000, 0xF00F⟩, ⟨0x8001, 0xF00F⟩, ⟨0x8002, 0xF00F⟩] ++
  [⟨0x8003, 0xF00F⟩, ⟨0x8004, 0xF00F⟩, ⟨0x8005, 0xF00F⟩, ⟨0x8006, 0xF00F⟩, ⟨0x8007, 0xF00F⟩, ⟨0x800E, 0xF00F⟩, ⟨0x9000, 0xF00F⟩, ⟨0xA000, 0xF000⟩, ⟨0xB000, 0xF000⟩, ⟨0xC000, 0xF000⟩, ⟨0xD000, 0xF000⟩, ⟨0xE09E, 0xF0FF⟩] ++
  [⟨0xE0A1, 0xF0FF⟩, ⟨0xF007, 0xF0FF⟩, ⟨0xF00A, 0xF0FF⟩, ⟨0xF015, 0xF0FF⟩, ⟨0xF018, 0xF0FF⟩, ⟨0xF01E, 0xF0FF⟩, ⟨0xF029, 0xF0FF⟩, ⟨0xF033, 0xF0FF⟩, ⟨0xF055, 0xF0FF⟩, ⟨0xF065, 0xF0FF⟩]

/-- A word is an instruction when it matches some row of the table; every other word is unknown
(30_encoding.md R75). Every literal nibble is checked in every family (R73, 90_conflicts.md C10). -/
def Word.isInstruction (op : Word) : Bool := opcodeTable.any fun r => r.covers op

/-- A configuration the spec allows: capacity 4096 or 4069 (00_scope.md R6), a grid of positive size (R11).
The stack depth and the font base are parameters without a bound (R7, R9). -/
def Config.valid (c : Config) : Bool :=
  (c.memCapacity == 4096 || c.memCapacity == 4069) && decide (0 < c.displayWidth) && decide (0 < c.displayHeight)

end Sys2Proof
end

