-- ==== Sys2Proof/Decode.lean ====
section
/-! DEFINITION. The decoder: total on every word and every byte sequence, rejecting by name; and the encoder, written
from the patterns of 30_encoding.md R73. Decoding reads only the word (30_encoding.md R76). -/

namespace Sys2Proof

/-- Why bytes are no instruction. `unknownOpcode`: the word matches no row of 30_encoding.md R73 (R75).
`truncated`: fewer than the two bytes every instruction takes (R70). -/
inductive DecodeError where
  | unknownOpcode (op : Word)
  | truncated (bytes : Nat)
  deriving DecidableEq, Repr

/-- `a = op[15:12]`, the primary discriminator (30_encoding.md R71). -/
def fieldA (op : Word) : Nibble := op.extractLsb' 12 4

/-- `x = b = op[11:8]` (30_encoding.md R71). -/
def fieldX (op : Word) : Reg := (op.extractLsb' 8 4).toFin

/-- `y = c = op[7:4]` (30_encoding.md R71). -/
def fieldY (op : Word) : Reg := (op.extractLsb' 4 4).toFin

/-- `n = d = op[3:0]` (30_encoding.md R71). -/
def fieldN (op : Word) : Nibble := op.extractLsb' 0 4

/-- `nn = op[7:0]` (30_encoding.md R71). -/
def fieldNN (op : Word) : Byte := op.extractLsb' 0 8

/-- `nnn = op[11:0]` (30_encoding.md R71). -/
def fieldNNN (op : Word) : Addr12 := op.extractLsb' 0 12

/-- Family 0: only `00E0` and `00EE`, all four nibbles literal (30_encoding.md R74). -/
def decodeFamily0 (op : Word) : Except DecodeError Instr :=
  match op with
  | 0x00E0#16 => .ok .cls
  | 0x00EE#16 => .ok .ret
  | _ => .error (.unknownOpcode op)

/-- Families 5 and 9: the low nibble is literal 0 (30_encoding.md R73, R74; 90_conflicts.md C10). -/
def decodeLowZero (op : Word) (i : Instr) : Except DecodeError Instr :=
  match fieldN op with
  | 0x0#4 => .ok i
  | _ => .error (.unknownOpcode op)

/-- Family 8: the low nibble selects the operation (30_encoding.md R74). -/
def decodeFamily8 (op : Word) : Except DecodeError Instr :=
  match fieldN op with
  | 0x0#4 => .ok (.ldReg (fieldX op) (fieldY op))
  | 0x1#4 => .ok (.orReg (fieldX op) (fieldY op))
  | 0x2#4 => .ok (.andReg (fieldX op) (fieldY op))
  | 0x3#4 => .ok (.xorReg (fieldX op) (fieldY op))
  | 0x4#4 => .ok (.addReg (fieldX op) (fieldY op))
  | 0x5#4 => .ok (.subReg (fieldX op) (fieldY op))
  | 0x6#4 => .ok (.shr (fieldX op) (fieldY op))
  | 0x7#4 => .ok (.subn (fieldX op) (fieldY op))
  | 0xE#4 => .ok (.shl (fieldX op) (fieldY op))
  | _ => .error (.unknownOpcode op)

/-- Family E: the low byte selects the skip (30_encoding.md R74). -/
def decodeFamilyE (op : Word) : Except DecodeError Instr :=
  match fieldNN op with
  | 0x9E#8 => .ok (.skp (fieldX op))
  | 0xA1#8 => .ok (.sknp (fieldX op))
  | _ => .error (.unknownOpcode op)

/-- Family F: the low byte selects the operation (30_encoding.md R74). -/
def decodeFamilyF (op : Word) : Except DecodeError Instr :=
  match fieldNN op with
  | 0x07#8 => .ok (.ldVxDt (fieldX op))
  | 0x0A#8 => .ok (.ldVxK (fieldX op))
  | 0x15#8 => .ok (.ldDtVx (fieldX op))
  | 0x18#8 => .ok (.ldStVx (fieldX op))
  | 0x1E#8 => .ok (.addI (fieldX op))
  | 0x29#8 => .ok (.ldF (fieldX op))
  | 0x33#8 => .ok (.ldB (fieldX op))
  | 0x55#8 => .ok (.stRegs (fieldX op))
  | 0x65#8 => .ok (.ldRegs (fieldX op))
  | _ => .error (.unknownOpcode op)

/-- The dispatch of a 16-bit word (30_encoding.md R73 to R76): one instruction with its fields, or unknown. The last
case is family F, the one nibble left. -/
def decode (op : Word) : Except DecodeError Instr :=
  match fieldA op with
  | 0x0#4 => decodeFamily0 op
  | 0x1#4 => .ok (.jp (fieldNNN op))
  | 0x2#4 => .ok (.call (fieldNNN op))
  | 0x3#4 => .ok (.seByte (fieldX op) (fieldNN op))
  | 0x4#4 => .ok (.sneByte (fieldX op) (fieldNN op))
  | 0x5#4 => decodeLowZero op (.seReg (fieldX op) (fieldY op))
  | 0x6#4 => .ok (.ldByte (fieldX op) (fieldNN op))
  | 0x7#4 => .ok (.addByte (fieldX op) (fieldNN op))
  | 0x8#4 => decodeFamily8 op
  | 0x9#4 => decodeLowZero op (.sneReg (fieldX op) (fieldY op))
  | 0xA#4 => .ok (.ldI (fieldNNN op))
  | 0xB#4 => .ok (.jpV0 (fieldNNN op))
  | 0xC#4 => .ok (.rnd (fieldX op) (fieldNN op))
  | 0xD#4 => .ok (.drw (fieldX op) (fieldY op) (fieldN op))
  | 0xE#4 => decodeFamilyE op
  | _ => decodeFamilyF op

/-- The 16-bit big-endian word of two bytes, the byte at the lower address first: `(hi << 8) | lo`
(20_memory.md R55, 10_state.md R37). -/
def composeWord (hi lo : Byte) : Word := (zext16 hi <<< 8) ||| zext16 lo

/-- The first byte of a word in memory order, its most significant byte (20_memory.md R55). -/
def highByte (op : Word) : Byte := op.extractLsb' 8 8

/-- The second byte of a word in memory order, its least significant byte (20_memory.md R55). -/
def lowByte (op : Word) : Byte := op.extractLsb' 0 8

/-- Decode the instruction at the head of a byte sequence: it always takes exactly two bytes
(30_encoding.md R70) and gives the rest back. -/
def decodeBytes : List Byte → Except DecodeError (Instr × List Byte)
  | hi :: lo :: rest =>
    match decode (composeWord hi lo) with
    | .ok i => .ok (i, rest)
    | .error e => .error e
  | short => .error (.truncated short.length)

/-- A register number as the four bits of its field (30_encoding.md R72). -/
def regBits (r : Reg) : Nibble := BitVec.ofFin r

/-- A word of the shape `annn`. -/
def wordNNN (a : Nibble) (nnn : Addr12) : Word := (a.setWidth 16 <<< 12) ||| nnn.setWidth 16

/-- A word of the shape `axnn`. -/
def wordXNN (a : Nibble) (x : Reg) (nn : Byte) : Word :=
  (a.setWidth 16 <<< 12) ||| ((regBits x).setWidth 16 <<< 8) ||| nn.setWidth 16

/-- A word of the shape `axyd`. -/
def wordXYN (a : Nibble) (x y : Reg) (d : Nibble) : Word :=
  (a.setWidth 16 <<< 12) ||| ((regBits x).setWidth 16 <<< 8) ||| ((regBits y).setWidth 16 <<< 4) ||| d.setWidth 16

/-- The word of an instruction: its operands substituted into its pattern (30_encoding.md R78, R73). -/
def encode : Instr → Word
  | .cls => 0x00E0
  | .ret => 0x00EE
  | .jp nnn => wordNNN 0x1 nnn
  | .call nnn => wordNNN 0x2 nnn
  | .seByte x nn => wordXNN 0x3 x nn
  | .sneByte x nn => wordXNN 0x4 x nn
  | .seReg x y => wordXYN 0x5 x y 0x0
  | .ldByte x nn => wordXNN 0x6 x nn
  | .addByte x nn => wordXNN 0x7 x nn
  | .ldReg x y => wordXYN 0x8 x y 0x0
  | .orReg x y => wordXYN 0x8 x y 0x1
  | .andReg x y => wordXYN 0x8 x y 0x2
  | .xorReg x y => wordXYN 0x8 x y 0x3
  | .addReg x y => wordXYN 0x8 x y 0x4
  | .subReg x y => wordXYN 0x8 x y 0x5
  | .shr x y => wordXYN 0x8 x y 0x6
  | .subn x y => wordXYN 0x8 x y 0x7
  | .shl x y => wordXYN 0x8 x y 0xE
  | .sneReg x y => wordXYN 0x9 x y 0x0
  | .ldI nnn => wordNNN 0xA nnn
  | .jpV0 nnn => wordNNN 0xB nnn
  | .rnd x nn => wordXNN 0xC x nn
  | .drw x y n => wordXYN 0xD x y n
  | .skp x => wordXNN 0xE x 0x9E
  | .sknp x => wordXNN 0xE x 0xA1
  | .ldVxDt x => wordXNN 0xF x 0x07
  | .ldVxK x => wordXNN 0xF x 0x0A
  | .ldDtVx x => wordXNN 0xF x 0x15
  | .ldStVx x => wordXNN 0xF x 0x18
  | .addI x => wordXNN 0xF x 0x1E
  | .ldF x => wordXNN 0xF x 0x29
  | .ldB x => wordXNN 0xF x 0x33
  | .stRegs x => wordXNN 0xF x 0x55
  | .ldRegs x => wordXNN 0xF x 0x65

/-- The bytes of an instruction as they lie in memory, ascending addresses (20_memory.md R55). -/
def encodeBytes (i : Instr) : List Byte := [highByte (encode i), lowByte (encode i)]

/-- The word whose low `nbits` bits are those of `w`, every bit above them 0. -/
def tableWord (nbits w : Nat) : Word := BitVec.ofNat 16 (w % 2 ^ nbits)

/-- The instruction the decoder reads from an instruction whose bits, numbered as spec/opcode_table.json numbers
them, are `w`: its word is laid out as the hardware stores it, high byte first, and given to the decoder. -/
def decodeTableWord (nbits w : Nat) : Option Instr :=
  match decodeBytes [highByte (tableWord nbits w), lowByte (tableWord nbits w)] with
  | .ok (i, _) => some i
  | .error _ => none

end Sys2Proof
end

