-- ==== Sys2Proof/Machine/State.lean ====
section
/-! DEFINITION. The machine's state: the record of 10_state.md R21, the display events of 40_display.md R100 and the
model's counter of free draws; the errors of 60_exceptions.md R170; the reasons a call can stop; the state after
reset (70_reset_and_hazards.md R190). -/

namespace Sys2Proof.Machine

/-- The five error kinds of 60_exceptions.md R170, with the payloads of its table. -/
inductive Error where
  /-- `load` overruns memory: the offset and the length asked for (R171). Never held in `mode`. -/
  | capacityExceeded (offset length : Nat)
  /-- A memory access at or past the capacity: the lowest failing address (R172). -/
  | outOfBounds (addr : Nat)
  /-- No pattern matches: the word and `PC - ROM_BASE`, signed (R173). -/
  | unknownOpcode (opcode : Word) (offset : Int)
  /-- `2nnn` with a full call stack (R174). -/
  | stackOverflow
  /-- `00EE` with an empty call stack (R175). -/
  | stackUnderflow
  deriving DecidableEq, Repr

/-- The error codes 1 to 5 (60_exceptions.md R170). -/
def Error.code : Error → Nat
  | .capacityExceeded _ _ => 1
  | .outOfBounds _ => 2
  | .unknownOpcode _ _ => 3
  | .stackOverflow => 4
  | .stackUnderflow => 5

/-- The three modes of the interpreter (10_state.md R36). -/
inductive Mode where
  /-- The next `step()` fetches and executes the instruction at `PC`. -/
  | running
  /-- Suspended inside `Fx0A` with destination register `x`; `PC` is at that `Fx0A`. -/
  | awaitingKey (x : Reg)
  /-- Error `e` has occurred; the instruction stream has stopped. -/
  | faulted (e : Error)
  deriving DecidableEq, Repr

/-- One call of the display contract as an output event (40_display.md R100, 92_eei_decisions.md D38). -/
inductive DisplayEvent where
  /-- `Display.clear()` -/
  | clear
  /-- `Display.flip(x, y)` and what it returned: the cell was on before (a collision). -/
  | flip (x y : Nat) (wasOn : Bool)
  /-- `Display.present()` -/
  | present
  deriving DecidableEq, Repr

/-- The memory store as a list of (address, byte) pairs; an address it does not list reads 0
(20_memory.md R50; log 2). `Memory.wf` is its canonical form. -/
abbrev Memory := List Host.Cell

/-- The display grid, one list of cells per row, true for on: cell (x, y) is entry x of row y
(10_state.md R35). -/
abbrev Grid := List (List Bool)

/-- The state of the machine (10_state.md R21). -/
structure State where
  /-- The general registers `V[0]` to `V[15]` (10_state.md R22). -/
  v : Vector Byte 16
  /-- The index register `I` (10_state.md R26). -/
  i : Word
  /-- The program counter (10_state.md R27). -/
  pc : Word
  /-- The call stack, its top first (10_state.md R32; log 11). -/
  stack : List Word
  /-- The delay timer (10_state.md R33). -/
  delay : Byte
  /-- The sound timer (10_state.md R33). -/
  sound : Byte
  /-- The interpreter's mode (10_state.md R36). -/
  mode : Mode
  /-- The memory store (20_memory.md R50). -/
  mem : Memory
  /-- The pressed keys `P`, entry k for key k (10_state.md R34; log 4). -/
  keys : Vector Bool 16
  /-- The display grid (10_state.md R35). -/
  grid : Grid
  /-- The display calls made so far, in call order (40_display.md R100; log 10). -/
  events : List DisplayEvent
  /-- The configuration, fixed for the run (10_state.md R21, R31). -/
  config : Config
  /-- THE MODEL'S OWN: how many free bytes `Cxnn` has drawn (43_alu.md R142; log 8). -/
  draws : Nat
  deriving DecidableEq, Repr

/-- Why a call ends in a fault that changes nothing. No instruction and no `step()` answers one: an error of a
step is the next state `Faulted(e)` (60_exceptions.md R176). -/
inductive Fault where
  /-- Raised by the host's `load` when `offset + length > MEM_CAPACITY` and reported to the host; memory and mode
  are unchanged (20_memory.md R61, R62; 60_exceptions.md R171). Safe: it is what the spec says. -/
  | capacityExceeded (offset length : Nat)
  deriving DecidableEq, Repr

/-- Why a call has no meaning in the model. -/
inductive Refusal where
  /-- An instruction without a meaning yet, by its mnemonic; every instruction has one, so nothing answers it.
  Safe: the model would stop where the machine goes on. -/
  | notModelled (mnemonic : String)
  /-- Answered to the host for a `load` after the first `step()`, which the spec does not model
  (20_memory.md R62, 93_implementation_defined.md). Safe: the model has no move there (log 12). -/
  | loadAfterFirstStep
  deriving DecidableEq, Repr

/-- The machine right after reset (70_reset_and_hazards.md R190): `PC = 0x200`, mode `Running`, empty stack, as
the spec says. DESIGN CHOICE, unsafe: the launch parameters take the spec's `ZeroInit` (log 1, 2), no key is pressed
(log 3), no free byte has been drawn (log 8); the configuration is the default one (log 5, 6). -/
def State.reset : State where
  v := Vector.replicate 16 0
  i := 0
  pc := 0x200
  stack := []
  delay := 0
  sound := 0
  mode := .running
  mem := []
  keys := Vector.replicate 16 false
  grid := List.replicate 32 (List.replicate 64 false)
  events := []
  config := Config.default
  draws := 0

end Sys2Proof.Machine
end

