-- ==== Sys2Proof/Machine/Ops.lean ====
section
/-! DEFINITION. The named operations over memory, registers, stack, timers, keys and display that the rules use
(00_scope.md R18), the fetch, and how an instruction ends: the handler results of 10_state.md R28 and an error
(60_exceptions.md R176). -/

namespace Sys2Proof.Machine

/-! ## Memory (20_memory.md) -/

/-- The byte at an address; an address that is not listed reads 0 (log 2). -/
def Memory.read : Memory → Nat → Byte
  | [], _ => 0#8
  | (b, w) :: rest, a => if b = a then w else Memory.read rest a

/-- Store a byte, keeping the list sorted and free of zero entries: storing 0 removes the entry. -/
def Memory.write : Memory → Nat → Byte → Memory
  | [], a, x => if x = 0#8 then [] else [(a, x)]
  | (b, w) :: rest, a, x =>
    if a < b then (if x = 0#8 then (b, w) :: rest else (a, x) :: (b, w) :: rest)
    else if a = b then (if x = 0#8 then rest else (a, x) :: rest)
    else (b, w) :: Memory.write rest a x

/-- Store a sequence of bytes at ascending addresses (20_memory.md R54, R61). -/
def Memory.writeList : Memory → Nat → List Byte → Memory
  | m, _, [] => m
  | m, a, x :: xs => Memory.writeList (Memory.write m a x) (a + 1) xs

/-- Canonical from address `lo` on: addresses strictly rising from `lo`, no entry equal to 0. -/
def Memory.wfFrom : Nat → Memory → Bool
  | _, [] => true
  | lo, (a, x) :: rest => decide (lo ≤ a) && x != 0#8 && Memory.wfFrom (a + 1) rest

/-- The canonical form of memory: addresses strictly rising, no entry equal to what an unlisted address reads as,
so that equal memories are equal lists. -/
def Memory.wf (m : Memory) : Bool := Memory.wfFrom 0 m

/-- Every listed address exists: it is below the capacity (20_memory.md R50). -/
def Memory.inRange (capacity : Nat) (m : Memory) : Bool := m.all fun c => decide (c.1 < capacity)

/-- `CheckRange(base, n)`: the least address of `base .. base + n - 1` at or past the capacity, if there is one
(00_scope.md R18, 20_memory.md R54). Addresses are exact integers (R53). -/
def checkRange (base n capacity : Nat) : Option Nat :=
  ((List.range n).find? fun k => decide (capacity ≤ base + k)).map fun k => base + k

/-- `MemRead(addr, 1)` (20_memory.md R51). -/
def State.memRead (addr : Nat) (s : State) : Except Error Byte :=
  if s.config.memCapacity ≤ addr then .error (.outOfBounds addr) else .ok (s.mem.read addr)

/-- The memory replaced. -/
def State.setMem (m : Memory) (s : State) : State := { s with mem := m }

/-- `MemWrite(addr, 1, v)` (20_memory.md R52). -/
def State.memWrite (addr : Nat) (x : Byte) (s : State) : Except Error State :=
  if s.config.memCapacity ≤ addr then .error (.outOfBounds addr) else .ok (s.setMem (s.mem.write addr x))

/-- Read the `n` bytes from `base` on, the whole range checked first (20_memory.md R54). -/
def State.readRange (base n : Nat) (s : State) : Except Error (List Byte) :=
  match checkRange base n s.config.memCapacity with
  | some a => .error (.outOfBounds a)
  | none => .ok ((List.range n).map fun k => s.mem.read (base + k))

/-- Write bytes from `base` on, ascending, the whole range checked first (20_memory.md R54). -/
def State.writeRange (base : Nat) (bytes : List Byte) (s : State) : Except Error State :=
  match checkRange base bytes.length s.config.memCapacity with
  | some a => .error (.outOfBounds a)
  | none => .ok (s.setMem (s.mem.writeList base bytes))

/-! ## Registers (10_state.md) -/

/-- `V[r]` (10_state.md R22). -/
def State.reg (r : Reg) (s : State) : Byte := s.v[r.val]

/-- `V[r] <- x` (10_state.md R22). -/
def State.setReg (r : Reg) (x : Byte) (s : State) : State := { s with v := s.v.set r.val x }

/-- `V[0]` to `V[x]`, in order (44_index_memory.md R154). -/
def State.regsUpTo (x : Reg) (s : State) : List Byte := s.v.toList.take (x.val + 1)

/-- Write bytes to the registers from number `k` up (44_index_memory.md R155). -/
def State.setRegs : Nat → List Byte → State → State
  | _, [], s => s
  | k, b :: bs, s => if h : k < 16 then State.setRegs (k + 1) bs (s.setReg ⟨k, h⟩ b) else s

/-- `I <- w & 0xFFF`: every assignment to `I` is masked to 12 bits (10_state.md R26). -/
def State.setI (w : Word) (s : State) : State := { s with i := w &&& 0xFFF#16 }

/-- `PC <- target` (10_state.md R27). -/
def State.setPc (target : Word) (s : State) : State := { s with pc := target }

/-- `delay <- x` (10_state.md R33). -/
def State.setDelay (x : Byte) (s : State) : State := { s with delay := x }

/-- `sound <- x` (10_state.md R33). -/
def State.setSound (x : Byte) (s : State) : State := { s with sound := x }

/-- `mode <- m` (10_state.md R36). -/
def State.setMode (m : Mode) (s : State) : State := { s with mode := m }

/-! ## Call stack (10_state.md R32) -/

/-- The stack replaced. -/
def State.setStack (st : List Word) (s : State) : State := { s with stack := st }

/-- `push(v)`: `StackOverflow` when `STACK_DEPTH` entries are held (10_state.md R32, 60_exceptions.md R174). -/
def State.push (w : Word) (s : State) : Except Error State :=
  if s.config.stackDepth ≤ s.stack.length then .error .stackOverflow else .ok (s.setStack (w :: s.stack))

/-- `pop()`: `StackUnderflow` when the stack is empty (10_state.md R32, 60_exceptions.md R175). -/
def State.pop (s : State) : Except Error (Word × State) :=
  match s.stack with
  | [] => .error .stackUnderflow
  | w :: rest => .ok (w, s.setStack rest)

/-! ## Pressed keys (10_state.md R34, 60_exceptions.md R185) -/

/-- The pressed set replaced. -/
def State.setKeys (p : Vector Bool 16) (s : State) : State := { s with keys := p }

/-- `is_pressed(k)`: membership in `P` (60_exceptions.md R185). -/
def State.isPressed (k : Key) (s : State) : Bool := s.keys[k.val]

/-- `min(P)`, the lowest pressed key; none when `P` is empty (00_scope.md R18). -/
def State.lowestKey (s : State) : Option Key := (List.finRange 16).find? fun k => s.isPressed k

/-- `P <- P \ (k)` where `fx0a_consumes_key`, else nothing (00_scope.md R14). -/
def State.consumeKey (k : Key) (s : State) : State :=
  if s.config.consumesKey then s.setKeys (s.keys.set k.val false) else s

/-- A key's number as a byte. -/
def keyByte (k : Key) : Byte := BitVec.ofNat 8 k.val

/-- The end of a key wait but for the advance: `V[x] <- k`, then the key is consumed where the configuration says
so (10_state.md R38, 45_timers_input.md R161). -/
def State.takeKey (x : Reg) (k : Key) (s : State) : State := (s.setReg x (keyByte k)).consumeKey k

/-! ## Free draw (43_alu.md R142) -/

/-- `draw_byte()`: the free byte drawn now. -/
def State.drawnByte (s : State) : Byte := Config.randomByte s.draws

/-- The draw is used up, so that the next one is another free byte (log 8). -/
def State.nextDraw (s : State) : State := { s with draws := s.draws + 1 }

/-! ## Display (40_display.md R100) -/

/-- The cell (x, y): true for on; a cell outside the grid reads off (log 18). -/
def Grid.cell (g : Grid) (x y : Nat) : Bool := (g.getD y []).getD x false

/-- Toggle the cell (x, y); outside the grid nothing changes (log 18). -/
def Grid.flip (g : Grid) (x y : Nat) : Grid := g.modify y fun row => row.modify x fun c => !c

/-- Every cell off. -/
def Grid.clear (g : Grid) : Grid := g.map fun row => row.map fun _ => false

/-- The grid has `h` rows of `w` cells (10_state.md R35). -/
def Grid.hasSize (w h : Nat) (g : Grid) : Bool := g.length == h && g.all fun row => row.length == w

/-- The `w` by `h` grid whose cells are those of `g`. -/
def Grid.ofSize (w h : Nat) (g : Grid) : Grid := (List.range h).map fun y => (List.range w).map fun x => g.cell x y

/-- Record a display call (40_display.md R100, 92_eei_decisions.md D38). -/
def State.emit (e : DisplayEvent) (s : State) : State := { s with events := s.events ++ [e] }

/-- The grid replaced. -/
def State.setGrid (g : Grid) (s : State) : State := { s with grid := g }

/-- `Display.clear()` (40_display.md R100). -/
def State.displayClear (s : State) : State := (s.setGrid s.grid.clear).emit .clear

/-- `Display.flip(x, y)` without its answer: the cell is toggled and the call recorded with what it returns
(40_display.md R100). -/
def State.displayFlip (x y : Nat) (s : State) : State :=
  (s.setGrid (s.grid.flip x y)).emit (.flip x y (s.grid.cell x y))

/-- `Display.present()`: no cell changes (40_display.md R100). -/
def State.displayPresent (s : State) : State := s.emit .present

/-- `if Display.flip(tx, ty): V[0xF] <- 1`, for each pixel in order (40_display.md R102). -/
def State.flipAll : List (Nat × Nat) → State → State
  | [], s => s
  | (x, y) :: rest, s =>
    State.flipAll rest (if s.grid.cell x y then (s.displayFlip x y).setReg VF 1#8 else s.displayFlip x y)

/-! ## Errors and the end of an instruction -/

/-- THE ERROR ENTRY: what an error raised in a step does, all of it (60_exceptions.md R176): `mode <- Faulted(e)`,
nothing else; `PC` stays at the failing instruction, nothing is saved, there is no handler. There is no return from
an error (R177): only a restart, which creates a new machine, leaves `Faulted` (70_reset_and_hazards.md R191). -/
def State.raise (e : Error) (s : State) : State := s.setMode (.faulted e)

/-- What the core reports to its host: the error it holds (10_state.md R39, 60_exceptions.md R176). -/
def State.reported (s : State) : Option Error :=
  match s.mode with
  | .faulted e => some e
  | _ => none

/-- What an instruction's handler hands back (10_state.md R28, R37): `Advance`, `NoAdvance`, `Suspend` or an error.
The first two carry the state the handler leaves. -/
inductive Result where
  | advance (s : State)
  | noAdvance (s : State)
  | suspend (x : Reg)
  | raise (e : Error)
  deriving DecidableEq, Repr

/-- `PC <- (PC + 2) mod 2^16` (10_state.md R28). -/
def State.advancePc (s : State) : State := s.setPc (s.pc + 2#16)

/-- Stage 5 of a step (10_state.md R37) and the error entry (60_exceptions.md R176): `s` is the state before the
instruction, so a suspension or an error keeps nothing the handler computed. -/
def finish (s : State) : Result → Host.Outcome State Fault Refusal
  | .advance t => .next t.advancePc
  | .noAdvance t => .next t
  | .suspend x => .next (s.setMode (.awaitingKey x))
  | .raise e => .next (s.raise e)

/-- Stage 1, the fetch: two bytes, big-endian, at `PC` and `PC + 1` (10_state.md R37, 20_memory.md R55, R56). -/
def State.fetch (s : State) : Except Error Word :=
  match s.memRead s.pc.toNat with
  | .error e => .error e
  | .ok hi =>
    match s.memRead (s.pc.toNat + 1) with
    | .error e => .error e
    | .ok lo => .ok (composeWord hi lo)

/-- The error of a word that is no instruction: the word and its address measured from `ROM_BASE`, signed
(60_exceptions.md R173). -/
def State.unknownOpcode (op : Word) (s : State) : Error :=
  .unknownOpcode op ((s.pc.toNat : Int) - (Config.romBase : Int))

/-- A word stored big-endian where the fetch reads it, at `PC` and `PC + 1` (20_memory.md R55). -/
def State.placeWord (op : Word) (s : State) : State :=
  s.setMem ((s.mem.write s.pc.toNat (highByte op)).write (s.pc.toNat + 1) (lowByte op))

end Sys2Proof.Machine
end

