-- ==== Sys2Proof/Machine/Flags.lean ====
section
/-! DEFINITION. The flag computations of 10_state.md R30, all on the values before the instruction, and the one way
a result and its flag are written (R24). The collision flag is written by `State.flipAll` (40_display.md R102). -/

namespace Sys2Proof.Machine

/-- Carry of `8xy4`: `(vx + vy > 255) ? 1 : 0` (43_alu.md R137). -/
def carryFlag (vx vy : Byte) : Byte := boolByte (decide (255 < vx.toNat + vy.toNat))

/-- No borrow of `a - b`: `(a >= b) ? 1 : 0` (43_alu.md R138, R140). -/
def noBorrowFlag (a b : Byte) : Byte := boolByte (decide (b.toNat ≤ a.toNat))

/-- The bit shifted out to the right: `s & 1` (43_alu.md R139). -/
def shiftedOutRight (s : Byte) : Byte := s &&& 1#8

/-- The bit shifted out to the left: `((s & 0x80) != 0) ? 1 : 0` (43_alu.md R141). -/
def shiftedOutLeft (s : Byte) : Byte := boolByte (s &&& 0x80#8 != 0#8)

/-- A flag-defining instruction writes its result register, then VF last, so that with `x = 0xF` VF ends as the
flag (10_state.md R24). -/
def State.setResultAndFlag (x : Reg) (result flag : Byte) (s : State) : State :=
  (s.setReg x result).setReg VF flag

end Sys2Proof.Machine
end

