-- ==== Sys2Proof/Machine/Operands.lean ====
section
/-! DEFINITION. The operand forms: what an instruction reads through its fields and its implicit operands, and the
addresses and targets formed from them (30_encoding.md R71, R72; 20_memory.md R53). -/

namespace Sys2Proof.Machine

/-- The effective address `I + k`, an exact integer (20_memory.md R53). -/
def State.indexAddr (k : Nat) (s : State) : Nat := s.i.toNat + k

/-- The value a shift works on: `V[y]`, or `V[x]` where `quirk_shift_uses_vy` is false (43_alu.md R139, R141). -/
def State.shiftSource (x y : Reg) (s : State) : Byte := if s.config.shiftUsesVy then s.reg y else s.reg x

/-- The target of `Bnnn`: `(nnn + V[0]) mod 2^16`, not reduced to 12 bits (41_control_flow.md R113). -/
def State.jumpV0Target (nnn : Addr12) (s : State) : Word := zextAddr nnn + zext16 (s.reg 0)

/-- The address `2nnn` saves: `(PC + 2) mod 2^16` (41_control_flow.md R112). -/
def State.returnAddress (s : State) : Word := s.pc + 2#16

/-- `I + V[x]` of `Fx1E`, before the mask (44_index_memory.md R151). -/
def State.indexSum (x : Reg) (s : State) : Word := s.i + zext16 (s.reg x)

/-- `FONT_BASE + V[x] * SPRITE_HEIGHT` of `Fx29`, before the mask; `V[x]` is used whole
(44_index_memory.md R152). -/
def State.glyphAddress (x : Reg) (s : State) : Word :=
  BitVec.ofNat 16 (s.config.fontBase + (s.reg x).toNat * Config.spriteHeight)

/-- The decimal digits hundreds, tens, ones of a byte (44_index_memory.md R153). -/
def decimalDigits (b : Byte) : List Byte :=
  [BitVec.ofNat 8 (b.toNat / 100), BitVec.ofNat 8 (b.toNat / 10 % 10), BitVec.ofNat 8 (b.toNat % 10)]

/-- The key numbered `b` is pressed; a number above 0xF names no key and is never pressed
(42_skips.md R125, R126). -/
def State.keyNumberPressed (b : Byte) (s : State) : Bool :=
  if h : b.toNat < 16 then s.isPressed ⟨b.toNat, h⟩ else false

/-- A skip on a condition: `PC <- (PC + 4) mod 2^16` without advance when it holds, else the plain advance
(42_skips.md R120). -/
def State.skipIf (c : Bool) (s : State) : Result :=
  if c then .noAdvance (s.setPc (s.pc + 4#16)) else .advance s

/-- Column of a sprite's origin: `V[x] mod W` (40_display.md R102). -/
def State.originX (x : Reg) (s : State) : Nat := (s.reg x).toNat % s.config.displayWidth

/-- Row of a sprite's origin: `V[y] mod H` (40_display.md R102). -/
def State.originY (y : Reg) (s : State) : Nat := (s.reg y).toNat % s.config.displayHeight

/-- The cell a sprite's pixel lands on: each coordinate wrapped on its own under `quirk_sprite_wraps`, else none
where it falls outside the grid (40_display.md R102). -/
def pixelTarget (c : Config) (tx ty : Nat) : Option (Nat × Nat) :=
  if c.spriteWraps then some (tx % c.displayWidth, ty % c.displayHeight)
  else if c.displayWidth ≤ tx ∨ c.displayHeight ≤ ty then none
  else some (tx, ty)

/-- The cells one sprite byte flips, most significant bit first (40_display.md R102). -/
def rowPixels (c : Config) (ox ty : Nat) (b : Byte) : List (Nat × Nat) :=
  (List.range 8).filterMap fun col => if b.getLsbD (7 - col) then pixelTarget c (ox + col) ty else none

/-- The cells a sprite flips, in row order, then column order (40_display.md R102). -/
def spritePixels (c : Config) (ox : Nat) : Nat → List Byte → List (Nat × Nat)
  | _, [] => []
  | ty, b :: rest => rowPixels c ox ty b ++ spritePixels c ox (ty + 1) rest

end Sys2Proof.Machine
end

