-- ==== Sys2Proof/Machine/Alu.lean ====
section
/-! DEFINITION. Register, arithmetic, logic, shift and random instructions (43_alu.md). All arithmetic is on 8-bit
unsigned values and wraps modulo 256 (R130); none raises an error. -/

namespace Sys2Proof.Machine

/-- `6xnn` LD Vx, nn (43_alu.md R131). -/
def execLdByte (x : Reg) (nn : Byte) (s : State) : Host.Outcome State Fault Refusal :=
  finish s (.advance (s.setReg x nn))

/-- `7xnn` ADD Vx, nn: no carry flag (43_alu.md R132). -/
def execAddByte (x : Reg) (nn : Byte) (s : State) : Host.Outcome State Fault Refusal :=
  finish s (.advance (s.setReg x (s.reg x + nn)))

/-- `8xy0` LD Vx, Vy (43_alu.md R133). -/
def execLdReg (x y : Reg) (s : State) : Host.Outcome State Fault Refusal :=
  finish s (.advance (s.setReg x (s.reg y)))

/-- `8xy1` OR Vx, Vy: VF is not reset (43_alu.md R134). -/
def execOrReg (x y : Reg) (s : State) : Host.Outcome State Fault Refusal :=
  finish s (.advance (s.setReg x (s.reg x ||| s.reg y)))

/-- `8xy2` AND Vx, Vy: VF is not reset (43_alu.md R135). -/
def execAndReg (x y : Reg) (s : State) : Host.Outcome State Fault Refusal :=
  finish s (.advance (s.setReg x (s.reg x &&& s.reg y)))

/-- `8xy3` XOR Vx, Vy: VF is not reset (43_alu.md R136). -/
def execXorReg (x y : Reg) (s : State) : Host.Outcome State Fault Refusal :=
  finish s (.advance (s.setReg x (s.reg x ^^^ s.reg y)))

/-- `8xy4` ADD Vx, Vy: VF is the carry (43_alu.md R137). -/
def execAddReg (x y : Reg) (s : State) : Host.Outcome State Fault Refusal :=
  finish s (.advance (s.setResultAndFlag x (s.reg x + s.reg y) (carryFlag (s.reg x) (s.reg y))))

/-- `8xy5` SUB Vx, Vy: VF is not-borrow (43_alu.md R138). -/
def execSubReg (x y : Reg) (s : State) : Host.Outcome State Fault Refusal :=
  finish s (.advance (s.setResultAndFlag x (s.reg x - s.reg y) (noBorrowFlag (s.reg x) (s.reg y))))

/-- `8xy6` SHR Vx, Vy: VF is bit 0 of the value shifted (43_alu.md R139). -/
def execShr (x y : Reg) (s : State) : Host.Outcome State Fault Refusal :=
  finish s (.advance (s.setResultAndFlag x (s.shiftSource x y >>> 1) (shiftedOutRight (s.shiftSource x y))))

/-- `8xy7` SUBN Vx, Vy: VF is not-borrow of `V[y] - V[x]` (43_alu.md R140). -/
def execSubn (x y : Reg) (s : State) : Host.Outcome State Fault Refusal :=
  finish s (.advance (s.setResultAndFlag x (s.reg y - s.reg x) (noBorrowFlag (s.reg y) (s.reg x))))

/-- `8xyE` SHL Vx, Vy: VF is bit 7 of the value shifted (43_alu.md R141). -/
def execShl (x y : Reg) (s : State) : Host.Outcome State Fault Refusal :=
  finish s (.advance (s.setResultAndFlag x (s.shiftSource x y <<< 1) (shiftedOutLeft (s.shiftSource x y))))

/-- `Cxnn` RND Vx, nn: a free byte masked by `nn` (43_alu.md R142; log 8). -/
def execRnd (x : Reg) (nn : Byte) (s : State) : Host.Outcome State Fault Refusal :=
  finish s (.advance (s.nextDraw.setReg x (s.drawnByte &&& nn)))

end Sys2Proof.Machine
end

