-- ==== Sys2Proof/Machine/ControlFlow.lean ====
section
/-! DEFINITION. The control transfers `00EE`, `1nnn`, `2nnn`, `Bnnn` (41_control_flow.md). None checks its target:
the next fetch does (R114). -/

namespace Sys2Proof.Machine

/-- `00EE` RET: `PC` is the popped return address (41_control_flow.md R110). -/
def execRet (s : State) : Host.Outcome State Fault Refusal :=
  match s.pop with
  | .error e => finish s (.raise e)
  | .ok (target, t) => finish s (.noAdvance (t.setPc target))

/-- `1nnn` JP nnn (41_control_flow.md R111). -/
def execJp (nnn : Addr12) (s : State) : Host.Outcome State Fault Refusal :=
  finish s (.noAdvance (s.setPc (zextAddr nnn)))

/-- `2nnn` CALL nnn: the address of the next instruction is pushed (41_control_flow.md R112). -/
def execCall (nnn : Addr12) (s : State) : Host.Outcome State Fault Refusal :=
  match s.push s.returnAddress with
  | .error e => finish s (.raise e)
  | .ok t => finish s (.noAdvance (t.setPc (zextAddr nnn)))

/-- `Bnnn` JP V0, nnn: always `V[0]`, never `V[x]` (41_control_flow.md R113). -/
def execJpV0 (nnn : Addr12) (s : State) : Host.Outcome State Fault Refusal :=
  finish s (.noAdvance (s.setPc (s.jumpV0Target nnn)))

end Sys2Proof.Machine
end

