-- ==== Sys2Proof/Machine/Display.lean ====
section
/-! DEFINITION. The display instructions `00E0` and `Dxyn` (40_display.md). -/

namespace Sys2Proof.Machine

/-- `00E0` CLS: clear the display; `present()` is not called (40_display.md R101). -/
def execCls (s : State) : Host.Outcome State Fault Refusal := finish s (.advance s.displayClear)

/-- A sprite drawn: VF is 0, then each pixel is flipped in order, a collision setting VF to 1, then `present()`.
The origin is that of the registers before the instruction (40_display.md R102, 10_state.md R24). -/
def State.drawSprite (x y : Reg) (rows : List Byte) (s : State) : State :=
  (State.flipAll (spritePixels s.config (s.originX x) (s.originY y) rows) (s.setReg VF 0#8)).displayPresent

/-- `Dxyn` DRW Vx, Vy, n: the range `I .. I + n - 1` is checked before any effect (40_display.md R102). -/
def execDrw (x y : Reg) (n : Nibble) (s : State) : Host.Outcome State Fault Refusal :=
  match s.readRange (s.indexAddr 0) n.toNat with
  | .error e => finish s (.raise e)
  | .ok rows => finish s (.advance (s.drawSprite x y rows))

end Sys2Proof.Machine
end

