-- ==== Sys2Proof/Machine/IndexMemory.lean ====
section
/-! DEFINITION. Index register and memory instructions (44_index_memory.md). Memory is reached only at `I + k`; `I`
keeps its value after a memory instruction. -/

namespace Sys2Proof.Machine

/-- `Annn` LD I, nnn (44_index_memory.md R150). -/
def execLdI (nnn : Addr12) (s : State) : Host.Outcome State Fault Refusal :=
  finish s (.advance (s.setI (zextAddr nnn)))

/-- `Fx1E` ADD I, Vx: wraps at 12 bits, VF not written (44_index_memory.md R151). -/
def execAddI (x : Reg) (s : State) : Host.Outcome State Fault Refusal :=
  finish s (.advance (s.setI (s.indexSum x)))

/-- `Fx29` LD F, Vx: `I` at the font glyph for `V[x]`; no memory is read (44_index_memory.md R152). -/
def execLdF (x : Reg) (s : State) : Host.Outcome State Fault Refusal :=
  finish s (.advance (s.setI (s.glyphAddress x)))

/-- `Fx33` LD B, Vx: the three decimal digits of `V[x]` at `I` (44_index_memory.md R153). -/
def execLdB (x : Reg) (s : State) : Host.Outcome State Fault Refusal :=
  match s.writeRange (s.indexAddr 0) (decimalDigits (s.reg x)) with
  | .error e => finish s (.raise e)
  | .ok t => finish s (.advance t)

/-- `Fx55` LD [I], Vx: `V[0]` to `V[x]` stored from `I` on (44_index_memory.md R154). -/
def execStRegs (x : Reg) (s : State) : Host.Outcome State Fault Refusal :=
  match s.writeRange (s.indexAddr 0) (s.regsUpTo x) with
  | .error e => finish s (.raise e)
  | .ok t => finish s (.advance t)

/-- `Fx65` LD Vx, [I]: `V[0]` to `V[x]` loaded from `I` on (44_index_memory.md R155). -/
def execLdRegs (x : Reg) (s : State) : Host.Outcome State Fault Refusal :=
  match s.readRange (s.indexAddr 0) (x.val + 1) with
  | .error e => finish s (.raise e)
  | .ok bytes => finish s (.advance (s.setRegs 0 bytes))

end Sys2Proof.Machine
end

