-- ==== Sys2Proof/Machine/Skips.lean ====
section
/-! DEFINITION. The conditional skips (42_skips.md): the condition is evaluated on the values before the
instruction; the skipped word is not fetched, decoded or checked (R120). -/

namespace Sys2Proof.Machine

/-- `3xnn` SE Vx, nn (42_skips.md R121). -/
def execSeByte (x : Reg) (nn : Byte) (s : State) : Host.Outcome State Fault Refusal :=
  finish s (s.skipIf (s.reg x == nn))

/-- `4xnn` SNE Vx, nn (42_skips.md R122). -/
def execSneByte (x : Reg) (nn : Byte) (s : State) : Host.Outcome State Fault Refusal :=
  finish s (s.skipIf (s.reg x != nn))

/-- `5xy0` SE Vx, Vy (42_skips.md R123). -/
def execSeReg (x y : Reg) (s : State) : Host.Outcome State Fault Refusal :=
  finish s (s.skipIf (s.reg x == s.reg y))

/-- `9xy0` SNE Vx, Vy (42_skips.md R124). -/
def execSneReg (x y : Reg) (s : State) : Host.Outcome State Fault Refusal :=
  finish s (s.skipIf (s.reg x != s.reg y))

/-- `Ex9E` SKP Vx (42_skips.md R125). -/
def execSkp (x : Reg) (s : State) : Host.Outcome State Fault Refusal :=
  finish s (s.skipIf (s.keyNumberPressed (s.reg x)))

/-- `ExA1` SKNP Vx (42_skips.md R126). -/
def execSknp (x : Reg) (s : State) : Host.Outcome State Fault Refusal :=
  finish s (s.skipIf (!s.keyNumberPressed (s.reg x)))

end Sys2Proof.Machine
end

