-- ==== Sys2Proof/Machine/TimersInput.lean ====
section
/-! DEFINITION. Timer and key-wait instructions (45_timers_input.md), the second half of a key wait
(10_state.md R38) and the timer tick (60_exceptions.md R182). -/

namespace Sys2Proof.Machine

/-- `Fx07` LD Vx, DT (45_timers_input.md R160). -/
def execLdVxDt (x : Reg) (s : State) : Host.Outcome State Fault Refusal :=
  finish s (.advance (s.setReg x s.delay))

/-- `Fx0A` LD Vx, K: the lowest pressed key, or suspension while none is pressed (45_timers_input.md R161). -/
def execLdVxK (x : Reg) (s : State) : Host.Outcome State Fault Refusal :=
  match s.lowestKey with
  | none => finish s (.suspend x)
  | some k => finish s (.advance (s.takeKey x k))

/-- `Fx15` LD DT, Vx (45_timers_input.md R162). -/
def execLdDtVx (x : Reg) (s : State) : Host.Outcome State Fault Refusal :=
  finish s (.advance (s.setDelay (s.reg x)))

/-- `Fx18` LD ST, Vx (45_timers_input.md R163). -/
def execLdStVx (x : Reg) (s : State) : Host.Outcome State Fault Refusal :=
  finish s (.advance (s.setSound (s.reg x)))

/-- `step()` in mode `AwaitingKey(x)`: nothing while no key is pressed, else the wait ends (10_state.md R38). -/
def stepAwaiting (x : Reg) (s : State) : Host.Outcome State Fault Refusal :=
  match s.lowestKey with
  | none => .next s
  | some k => .next ((s.takeKey x k).advancePc.setMode .running)

/-- A timer after one tick: one less, floored at 0 (60_exceptions.md R182). -/
def tickByte (t : Byte) : Byte := if t = 0#8 then 0#8 else t - 1#8

/-- `tick()`: both timers count down; nothing else changes; valid in every mode (60_exceptions.md R182). -/
def State.tick (s : State) : State := (s.setDelay (tickByte s.delay)).setSound (tickByte s.sound)

end Sys2Proof.Machine
end

