-- ==== Sys2Proof/Machine/Cycle.lean ====
section
/-! DEFINITION. `step()` in mode `Running`: fetch, decode, dispatch, execute, advance (10_state.md R37); and the
placing of one instruction where the next fetch reads it. -/

namespace Sys2Proof.Machine

/-- Stages 2 to 5 on a fetched word; an unknown word raises `UnknownOpcode` at dispatch
(10_state.md R37, 30_encoding.md R75). -/
def runWord (op : Word) (s : State) : Host.Outcome State Fault Refusal :=
  match decode op with
  | .error _ => finish s (.raise (s.unknownOpcode op))
  | .ok i => exec i s

/-- `step_running()` (10_state.md R37): the first stage to fail decides the error (60_exceptions.md R178). -/
def stepRunning (s : State) : Host.Outcome State Fault Refusal :=
  match s.fetch with
  | .error e => finish s (.raise e)
  | .ok op => runWord op s

/-- The word of one instruction placed at `PC`, and mode `Running`, so that the next step fetches and runs it. It
stands for the host's `load` of a program (20_memory.md R61, log 13). -/
def State.placeInstr (nbits w : Nat) (s : State) : State := (s.placeWord (tableWord nbits w)).setMode .running

end Sys2Proof.Machine
end

