-- ==== Sys2Proof/Machine/Step.lean ====
section
/-! DEFINITION. The host's entry point `step()` (10_state.md R37 to R39), the pressed set `P` being the one State
holds at its start (R34). -/

namespace Sys2Proof.Machine

/-- `step()`: in `Running` one instruction (10_state.md R37), in `AwaitingKey(x)` the wait (R38), in `Faulted(e)`
nothing changes and `e` is reported again, which is the state's mode (R39; log 9). -/
def step (s : State) : Host.Outcome State Fault Refusal :=
  match s.mode with
  | .running => stepRunning s
  | .awaitingKey x => stepAwaiting x s
  | .faulted _ => .next s

/-- `s` with the instruction whose bits are `w` stored where `step` fetches its next instruction (log 13). -/
def State.withFetchWord (s : State) (nbits w : Nat) : State := s.placeInstr nbits w

end Sys2Proof.Machine
end

