-- ==== Sys2Proof/Machine/HostCalls.lean ====
section
/-! DEFINITION. The host's side of the machine: creating one (70_reset_and_hazards.md R190, R191), its entry points
`load`, `step` and `tick` and the change of the pressed set, one call at a time in any order (10_state.md R20,
70_reset_and_hazards.md R197). -/

namespace Sys2Proof.Machine

/-- The launch parameters: every value the core does not set when a machine is created
(70_reset_and_hazards.md R190). -/
structure Launch where
  /-- `V[0]` to `V[15]`. -/
  v : Vector Byte 16
  /-- `I`, a 12-bit value (10_state.md R26). -/
  i : Addr12
  delay : Byte
  sound : Byte
  /-- The bytes of memory from address 0 on; bytes past the capacity are dropped, bytes not given are 0 (log 17). -/
  mem : List Byte
  /-- The cells of the grid; cells not given are off (log 17). -/
  grid : Grid
  /-- What the input surface reports. -/
  keys : Vector Bool 16
  /-- Where the free draws stand (log 8). -/
  draws : Nat
  deriving DecidableEq, Repr

/-- The spec's launch predicate `ZeroInit` (70_reset_and_hazards.md R190), with no key pressed. -/
def Launch.zeroInit : Launch where
  v := Vector.replicate 16 0
  i := 0
  delay := 0
  sound := 0
  mem := []
  grid := []
  keys := Vector.replicate 16 false
  draws := 0

/-- A machine just created with configuration `c` and launch parameters `l`: `PC = 0x200`, mode `Running`, empty
stack, no display call made (70_reset_and_hazards.md R190, R191). -/
def State.launch (c : Config) (l : Launch) : State where
  v := l.v
  i := zextAddr l.i
  pc := BitVec.ofNat 16 Config.romBase
  stack := []
  delay := l.delay
  sound := l.sound
  mode := .running
  mem := Memory.writeList [] 0 (l.mem.take c.memCapacity)
  keys := l.keys
  grid := Grid.ofSize c.displayWidth c.displayHeight l.grid
  events := []
  config := c
  draws := l.draws

/-- `load(bytes, offset)`: `CapacityExceeded` when `offset + len(bytes) > MEM_CAPACITY`, with nothing changed; else
the bytes are copied (20_memory.md R61, 60_exceptions.md R171). -/
def State.load (bytes : List Byte) (offset : Nat) (s : State) : Host.Outcome State Fault Refusal :=
  if s.config.memCapacity < offset + bytes.length then .fault (.capacityExceeded offset bytes.length)
  else .next (s.setMem (s.mem.writeList offset bytes))

/-- A machine and whether a `step()` has run since it was created: `load` is admitted only before
(20_memory.md R62; log 12). -/
structure Session where
  core : State
  started : Bool
  deriving DecidableEq, Repr

/-- What the host does to the machine (10_state.md R20, 70_reset_and_hazards.md R191, R197). -/
inductive HostCall where
  /-- `load(bytes, offset)` (20_memory.md R61). -/
  | load (bytes : List Byte) (offset : Nat)
  /-- `step()` (10_state.md R37 to R39). -/
  | step
  /-- `tick()` (60_exceptions.md R182). -/
  | tick
  /-- The pressed set changes between two calls (70_reset_and_hazards.md R197). -/
  | input (p : Vector Bool 16)
  /-- The host restarts: a new machine is created (70_reset_and_hazards.md R191). -/
  | restart (c : Config) (l : Launch)
  deriving DecidableEq, Repr

/-- What the core gives back (70_reset_and_hazards.md R197, last column). -/
inductive HostReply where
  | nothing
  /-- `step()` completed an instruction. -/
  | completed
  /-- `step()` is waiting for a key. -/
  | suspended
  /-- The error of a step (60_exceptions.md R176), again at each later step (10_state.md R39), or of `load`. -/
  | error (e : Error)
  /-- `load` after the first step: the model has no move (20_memory.md R62). -/
  | notAdmitted (r : Refusal)
  deriving DecidableEq, Repr

/-- The reply of a `step()` that left the machine in a mode (70_reset_and_hazards.md R197). -/
def stepReply : Mode → HostReply
  | .running => .completed
  | .awaitingKey _ => .suspended
  | .faulted e => .error e

/-- An error reported to the host by a call that changes nothing. -/
def Fault.reply : Fault → HostReply
  | .capacityExceeded offset length => .error (.capacityExceeded offset length)

/-- One host call: the session after it and what the core gives back. -/
def Session.call (c : HostCall) (n : Session) : Session × HostReply :=
  match c with
  | .load bytes offset =>
    if n.started then (n, .notAdmitted .loadAfterFirstStep)
    else
      match n.core.load bytes offset with
      | .next t => (⟨t, n.started⟩, .nothing)
      | .fault f => (n, f.reply)
      | .refused r => (n, .notAdmitted r)
  | .step =>
    match Sys2Proof.Machine.step n.core with
    | .next t => (⟨t, true⟩, stepReply t.mode)
    | .fault f => (n, f.reply)
    | .refused r => (n, .notAdmitted r)
  | .tick => (⟨n.core.tick, n.started⟩, .nothing)
  | .input p => (⟨n.core.setKeys p, n.started⟩, .nothing)
  | .restart cfg l => (⟨State.launch cfg l, false⟩, .nothing)

/-- A newly created machine (70_reset_and_hazards.md R191). -/
def Session.create (c : Config) (l : Launch) : Session := ⟨State.launch c l, false⟩

/-- Host calls one after the other, in any order the host chooses (10_state.md R20). -/
def Session.run : List HostCall → Session → Session
  | [], n => n
  | c :: rest, n => Session.run rest (n.call c).1

end Sys2Proof.Machine
end

