-- ==== Sys2Proof/Safety.lean ====
section
/-! DEFINITION. The terms claims are stated in: the parts of a state and what is kept of them, the invariant of the
machine, the end states of 70_reset_and_hazards.md R200, the launch predicate `ZeroInit` (R190), which parts each
instruction may write, and the cells a sprite covers. -/

namespace Sys2Proof.Machine

/-! ## Parts of a state and frames -/

/-- One part of a state: a register, a byte of memory, or one of the other fields (10_state.md R21). -/
inductive Part where
  | reg (r : Reg)
  | index
  | pc
  | stack
  | delay
  | sound
  | mode
  | byte (addr : Nat)
  | keys
  | grid
  | events
  | config
  | draws
  deriving DecidableEq, Repr

/-- The part holds the same in `t` as in `s`; memory is compared byte by byte, through the read of one byte. -/
def Part.kept (s t : State) : Part → Prop
  | .reg r => t.reg r = s.reg r
  | .index => t.i = s.i
  | .pc => t.pc = s.pc
  | .stack => t.stack = s.stack
  | .delay => t.delay = s.delay
  | .sound => t.sound = s.sound
  | .mode => t.mode = s.mode
  | .byte a => t.mem.read a = s.mem.read a
  | .keys => t.keys = s.keys
  | .grid => t.grid = s.grid
  | .events => t.events = s.events
  | .config => t.config = s.config
  | .draws => t.draws = s.draws

/-- Every part but those in `written` is unchanged from `s` to `t`. -/
def KeepsAllBut (written : Part → Prop) (s t : State) : Prop := ∀ p, ¬ written p → p.kept s t

/-- The parts in a list. -/
def Parts (ps : List Part) : Part → Prop := fun p => p ∈ ps

/-- The parts in a list and the `n` bytes of memory from `base` on. -/
def PartsAndBytes (ps : List Part) (base n : Nat) : Part → Prop :=
  fun p => p ∈ ps ∨ ∃ k < n, p = .byte (base + k)

/-- The parts in a list and the registers `V[0]` to `V[x]`. -/
def PartsAndRegs (ps : List Part) (x : Reg) : Part → Prop := fun p => p ∈ ps ∨ ∃ r ≤ x, p = .reg r

/-! ## Encodings -/

/-- Every word with these literal bits under this mask decodes to the instruction with the operands `f` reads from
the word's fields (30_encoding.md R73). -/
def DecodesAs (bits mask : Word) (f : Word → Instr) : Prop := ∀ op : Word, op &&& mask = bits → decode op = .ok (f op)

/-! ## Invariant -/

/-- What holds of every machine a host creates with a valid configuration, after any calls: memory canonical and
within the capacity (20_memory.md R50), `I` a 12-bit value (10_state.md R26), `PC` at most 0x10FE (R29), at most
`STACK_DEPTH` return addresses, none past the capacity (R29, R32), a grid of the configured size (R35), a key wait only at its
own `Fx0A` (R36), `CapacityExceeded` never held (60_exceptions.md R171), a configuration the spec allows
(00_scope.md R6, R11). -/
structure State.Inv (s : State) : Prop where
  memCanonical : s.mem.wf = true
  memWithinCapacity : s.mem.inRange s.config.memCapacity = true
  indexTwelveBits : s.i.toNat ≤ 0xFFF
  pcBounded : s.pc.toNat ≤ 0x10FE
  stackWithinDepth : s.stack.length ≤ s.config.stackDepth
  returnAddressesBounded : ∀ w ∈ s.stack, w.toNat ≤ s.config.memCapacity
  gridSized : s.grid.hasSize s.config.displayWidth s.config.displayHeight = true
  waitsAtItsInstruction : ∀ x, s.mode = .awaitingKey x → s.fetch = .ok (encode (.ldVxK x))
  neverCapacityExceeded : ∀ offset length, s.mode ≠ .faulted (.capacityExceeded offset length)
  configValid : s.config.valid = true

/-- The invariant of a session: the machine's own, and a machine that has not stepped is `Running`. -/
structure Session.Inv (n : Session) : Prop where
  core : n.core.Inv
  freshRuns : n.started = false → n.core.mode = .running

/-- A host call that creates no machine with a configuration the spec does not allow. -/
def HostCall.valid : HostCall → Bool
  | .restart c _ => c.valid
  | _ => true

/-- A host call that is no restart. -/
def HostCall.keepsMachine : HostCall → Bool
  | .restart _ _ => false
  | _ => true

/-! ## Launch and end states -/

/-- The launch predicate `ZeroInit` (70_reset_and_hazards.md R190), nothing being loaded yet. -/
structure State.ZeroInit (s : State) : Prop where
  regs : ∀ r, s.reg r = 0
  index : s.i = 0
  delay : s.delay = 0
  sound : s.sound = 0
  bytes : ∀ a, s.mem.read a = 0
  cells : ∀ x y, s.grid.cell x y = false

/-- Parked, a good end: `Running`, and the word at `PC` is a jump to itself (70_reset_and_hazards.md R200). -/
def State.Parked (s : State) : Prop :=
  s.mode = .running ∧ ∃ nnn : Addr12, s.fetch = .ok (encode (.jp nnn)) ∧ zextAddr nnn = s.pc

/-- Faulted, a bad end (70_reset_and_hazards.md R200). -/
def State.Faulted (s : State) : Prop := ∃ e, s.mode = .faulted e

/-- Waiting, not an end (70_reset_and_hazards.md R200). -/
def State.Waiting (s : State) : Prop := ∃ x, s.mode = .awaitingKey x

/-- An outcome with its next state changed by `f`; a fault or a refusal is itself. -/
def mapNext (f : State → State) :
    Host.Outcome State Fault Refusal → Host.Outcome State Fault Refusal
  | .next t => .next (f t)
  | .fault r => .fault r
  | .refused r => .refused r

/-- The state with `quirk_shift_uses_vy` set to `b`. -/
def State.withShiftQuirk (b : Bool) (s : State) : State := { s with config := { s.config with shiftUsesVy := b } }

/-- The state with `quirk_sprite_wraps` set to `b`. -/
def State.withWrapQuirk (b : Bool) (s : State) : State := { s with config := { s.config with spriteWraps := b } }

/-! ## The display -/

/-- What a display call does to the cells (40_display.md R100). -/
def DisplayEvent.apply (g : Grid) : DisplayEvent → Grid
  | .clear => g.clear
  | .flip x y _ => g.flip x y
  | .present => g

/-- The cells after a sequence of display calls. -/
def replay (g : Grid) (es : List DisplayEvent) : Grid := es.foldl DisplayEvent.apply g

/-- Every recorded flip reports whether its cell was on just before it (40_display.md R100). -/
def reportsTruly : Grid → List DisplayEvent → Prop
  | _, [] => True
  | g, .flip x y wasOn :: rest => wasOn = g.cell x y ∧ reportsTruly (g.flip x y) rest
  | g, .clear :: rest => reportsTruly g.clear rest
  | g, .present :: rest => reportsTruly g rest

/-- The cell a recorded flip names. -/
def DisplayEvent.target : DisplayEvent → Option (Nat × Nat)
  | .flip x y _ => some (x, y)
  | _ => none

/-- The event is a flip that collided. -/
def DisplayEvent.collided : DisplayEvent → Bool
  | .flip _ _ wasOn => wasOn
  | _ => false

/-- The cells `Dxyn` flips, in the order of the pseudocode of 40_display.md R102: for each row, for each column,
where the bit is set, the pixel wrapped or clipped. -/
def State.drawnCells (x y : Reg) (n : Nibble) (s : State) : List (Nat × Nat) :=
  let w := s.config.displayWidth
  let h := s.config.displayHeight
  let ox := (s.reg x).toNat % w
  let oy := (s.reg y).toNat % h
  (List.range n.toNat).flatMap fun row =>
    (List.range 8).filterMap fun col =>
      if (s.mem.read (s.i.toNat + row)).getLsbD (7 - col) = true then
        if s.config.spriteWraps = true then some ((ox + col) % w, (oy + row) % h)
        else if ox + col < w ∧ oy + row < h then some (ox + col, oy + row)
        else none
      else none

/-- Without wrap: the sprite of `n` rows at `I` with origin `(ox, oy)` has a set bit at the cell `(cx, cy)`
(40_display.md R102). -/
def State.spriteCovers (n ox oy cx cy : Nat) (s : State) : Bool :=
  decide (ox ≤ cx) && decide (cx < ox + 8) && decide (oy ≤ cy) && decide (cy < oy + n) &&
    (s.mem.read (s.i.toNat + (cy - oy))).getLsbD (7 - (cx - ox))

/-- With wrap: column `col` and row `row` of the sprite of `n` rows at `I` is a set bit that lands on the cell
`(cx, cy)`, each coordinate wrapped on its own (40_display.md R102). -/
def State.spriteWrapsOnto (n ox oy cx cy row col : Nat) (s : State) : Prop :=
  row < n ∧ col < 8 ∧ (s.mem.read (s.i.toNat + row)).getLsbD (7 - col) = true ∧
    (ox + col) % s.config.displayWidth = cx ∧ (oy + row) % s.config.displayHeight = cy

end Sys2Proof.Machine

namespace Sys2Proof

open Machine

/-! ## Who writes what -/

/-- The parts an instruction may write, from the writers named by 10_state.md R25, R26, R32, R33, R34, R35 and
20_memory.md R57. Every instruction may write `PC`; `mode` is written only by the six that can raise an error of their
own (`00EE`, `2nnn`, `Dxyn`, `Fx33`, `Fx55`, `Fx65`) and by `Fx0A`, which can suspend (10_state.md R31). -/
def Instr.mayWrite (s : State) : Instr → Part → Prop
  | .cls => Parts [.pc, .grid, .events]
  | .ret => Parts [.pc, .mode, .stack]
  | .jp _ => Parts [.pc]
  | .call _ => Parts [.pc, .mode, .stack]
  | .seByte _ _ => Parts [.pc]
  | .sneByte _ _ => Parts [.pc]
  | .seReg _ _ => Parts [.pc]
  | .ldByte x _ => Parts [.pc, .reg x]
  | .addByte x _ => Parts [.pc, .reg x]
  | .ldReg x _ => Parts [.pc, .reg x]
  | .orReg x _ => Parts [.pc, .reg x]
  | .andReg x _ => Parts [.pc, .reg x]
  | .xorReg x _ => Parts [.pc, .reg x]
  | .addReg x _ => Parts [.pc, .reg x, .reg VF]
  | .subReg x _ => Parts [.pc, .reg x, .reg VF]
  | .shr x _ => Parts [.pc, .reg x, .reg VF]
  | .subn x _ => Parts [.pc, .reg x, .reg VF]
  | .shl x _ => Parts [.pc, .reg x, .reg VF]
  | .sneReg _ _ => Parts [.pc]
  | .ldI _ => Parts [.pc, .index]
  | .jpV0 _ => Parts [.pc]
  | .rnd x _ => Parts [.pc, .reg x, .draws]
  | .drw _ _ _ => Parts [.pc, .mode, .reg VF, .grid, .events]
  | .skp _ => Parts [.pc]
  | .sknp _ => Parts [.pc]
  | .ldVxDt x => Parts [.pc, .reg x]
  | .ldVxK x => Parts [.pc, .mode, .reg x, .keys]
  | .ldDtVx _ => Parts [.pc, .delay]
  | .ldStVx _ => Parts [.pc, .sound]
  | .addI _ => Parts [.pc, .index]
  | .ldF _ => Parts [.pc, .index]
  | .ldB _ => PartsAndBytes [.pc, .mode] s.i.toNat 3
  | .stRegs x => PartsAndBytes [.pc, .mode] s.i.toNat (x.val + 1)
  | .ldRegs x => PartsAndRegs [.pc, .mode] x

/-- The instructions that read the pressed set (10_state.md R34). -/
def Instr.readsKeys : Instr → Bool
  | .skp _ | .sknp _ | .ldVxK _ => true
  | _ => false

/-- The instructions whose meaning reads `quirk_shift_uses_vy` (30_encoding.md R77). -/
def Instr.readsShiftQuirk : Instr → Bool
  | .shr _ _ | .shl _ _ => true
  | _ => false

/-- The instructions whose meaning reads `quirk_sprite_wraps` (30_encoding.md R77). -/
def Instr.readsWrapQuirk : Instr → Bool
  | .drw _ _ _ => true
  | _ => false

end Sys2Proof
end

