-- ==== Sys2Proof/Certificates/Slice0/Obligations.lean ====
section
/-! DEFINITION. The statements for the provers, each a proposition about the model that formalises rules of spec/. -/

open Sys2Proof Sys2Proof.Machine

/-- Decoding the word or the bytes of any instruction gives that instruction back (30_encoding.md R70, 30_encoding.md R71, 30_encoding.md R73, 30_encoding.md R78). -/
def Obligations.DecodeReadsBackEveryEncoding : Prop :=
  ∀ (i : Instr) (rest : List Byte),
    i.wellFormed = true → decode (encode i) = .ok i ∧ decodeBytes (encodeBytes i ++ rest) = .ok (i, rest)

/-- Every word is exactly one instruction with its fields, or unknown (R76). -/
def Obligations.EveryWordIsOneInstructionOrUnknown : Prop :=
  ∀ op : Word,
    (∃ i, decode op = .ok i ∧ encode i = op ∧ i.row ∈ opcodeTable ∧ i.row.covers op = true ∧
      ∀ r ∈ opcodeTable, r.covers op = true → r = i.row) ∨
    (decode op = .error (.unknownOpcode op) ∧ ∀ r ∈ opcodeTable, r.covers op = false)

/-- Words written out from the spec's patterns decode to their instructions (30_encoding.md R73, 30_encoding.md R75, 30_encoding.md R78, 95_test_vectors.md section 2). -/
def Obligations.SampleWordsDecode : Prop :=
  decode 0x00E0 = .ok .cls ∧ decode 0x2ABC = .ok (.call 0xABC) ∧ decode 0x3205 = .ok (.seByte 2 0x05) ∧
    decode 0x8374 = .ok (.addReg 3 7) ∧ decode 0xDF1A = .ok (.drw 15 1 0xA) ∧ decode 0xF265 = .ok (.ldRegs 2) ∧
    decode 0xF20A = .ok (.ldVxK 2) ∧ decode 0x01E0 = .error (.unknownOpcode 0x01E0) ∧
    decode 0x5001 = .error (.unknownOpcode 0x5001) ∧ decode 0x9001 = .error (.unknownOpcode 0x9001) ∧
    decode 0xE19F = .error (.unknownOpcode 0xE19F)

/-- A created machine: PC 0x200, Running, empty stack, every other value the launch's (R190). -/
def Obligations.CreationSetsPcModeAndStack : Prop :=
  ∀ (c : Config) (l : Launch) (s : State), s = State.launch c l →
    s.pc = 0x200#16 ∧ s.mode = .running ∧ s.stack = [] ∧ (∀ r : Reg, s.reg r = l.v[r.val]) ∧
      s.i.toNat = l.i.toNat ∧ s.delay = l.delay ∧ s.sound = l.sound ∧ s.keys = l.keys ∧ s.config = c ∧
      (∀ a < c.memCapacity, s.mem.read a = l.mem.getD a 0#8) ∧
      (∀ x < c.displayWidth, ∀ y < c.displayHeight, s.grid.cell x y = l.grid.cell x y)

/-- State.reset is the default machine launched with ZeroInit (the model's choice, log 1, 2, 3, 5, 6, 8) (70_reset_and_hazards.md R190 (launch predicate ZeroInit), log 1, log 2, log 3, log 5, log 6, log 8). -/
def Obligations.ResetIsTheZeroLaunch : Prop :=
  State.reset = State.launch Config.default Launch.zeroInit ∧ State.reset.ZeroInit

/-- The invariant holds at reset (70_reset_and_hazards.md R190, 10_state.md R26, 10_state.md R29, 10_state.md R32, 20_memory.md R50). -/
def Obligations.ResetHasTheInvariant : Prop :=
  State.reset.Inv

/-- Every machine created with a valid configuration satisfies the invariant (70_reset_and_hazards.md R190, 00_scope.md R6, 00_scope.md R11, 10_state.md R26, 20_memory.md R50). -/
def Obligations.CreatedMachinesHaveTheInvariant : Prop :=
  ∀ (c : Config) (l : Launch), c.valid = true → (State.launch c l).Inv

/-- Every step keeps the invariant (10_state.md R26, 10_state.md R29, 10_state.md R32, 10_state.md R35, 10_state.md R36, 20_memory.md R50, 60_exceptions.md R171). -/
def Obligations.StepKeepsTheInvariant : Prop :=
  ∀ s t : State, s.Inv → step s = .next t → t.Inv

/-- Any sequence of host calls keeps the invariant (10_state.md R20, 20_memory.md R61, 20_memory.md R62, 60_exceptions.md R182, 70_reset_and_hazards.md R197). -/
def Obligations.HostCallsKeepTheInvariant : Prop :=
  ∀ (calls : List HostCall) (n : Session),
    n.Inv → (∀ c ∈ calls, c.valid = true) → (Session.run calls n).Inv

/-- In Running, a step is exec of the instruction at PC (10_state.md R37, 20_memory.md R55, 20_memory.md R56). -/
def Obligations.StepRunsTheDecodedInstruction : Prop :=
  ∀ (s : State) (i : Instr), s.mode = .running → s.pc.toNat + 1 < s.config.memCapacity →
    decode (composeWord (s.mem.read s.pc.toNat) (s.mem.read (s.pc.toNat + 1))) = .ok i →
    i.wellFormed = true ∧ step s = exec i s

/-- After withFetchWord, which stores an instruction at PC and sets mode Running from every mode (the model's choice,
log 13), the next step runs that instruction (20_memory.md R65, 10_state.md R37, 30_encoding.md R73; log 13). -/
def Obligations.PlacedInstructionIsTheNextToRun : Prop :=
  ∀ (s : State) (nbits w : Nat) (i : Instr), s.mem.wf = true → s.pc.toNat + 1 < s.config.memCapacity →
    decodeTableWord nbits w = some i → step (s.withFetchWord nbits w) = exec i (s.withFetchWord nbits w)

/-- A fetch past the capacity raises OutOfBounds at PC, else at PC + 1 (10_state.md R37, 20_memory.md R51, 20_memory.md R55, 20_memory.md R56, 60_exceptions.md R172, 60_exceptions.md R178). -/
def Obligations.FetchPastMemoryRaisesOutOfBounds : Prop :=
  ∀ s : State, s.mode = .running →
    (s.config.memCapacity ≤ s.pc.toNat → step s = .next { s with mode := .faulted (.outOfBounds s.pc.toNat) }) ∧
    (s.pc.toNat < s.config.memCapacity → s.config.memCapacity ≤ s.pc.toNat + 1 →
      step s = .next { s with mode := .faulted (.outOfBounds (s.pc.toNat + 1)) }) ∧
    (s.pc.toNat + 1 < s.config.memCapacity → ∃ op : Word, s.fetch = .ok op ∧
      op.toNat = (s.mem.read s.pc.toNat).toNat * 256 + (s.mem.read (s.pc.toNat + 1)).toNat)

/-- A word that matches no row raises UnknownOpcode with the word and PC - 0x200 (R75, R173). -/
def Obligations.UnknownWordRaisesUnknownOpcode : Prop :=
  ∀ (s : State) (op : Word), s.mode = .running → s.fetch = .ok op →
    ((∀ r ∈ opcodeTable, r.covers op = false) →
      step s = .next { s with mode := .faulted (.unknownOpcode op ((s.pc.toNat : Int) - 0x200)) }) ∧
    ((∃ r ∈ opcodeTable, r.covers op = true) → ∃ i, decode op = .ok i ∧ step s = exec i s)

/-- A step in AwaitingKey(x): nothing while no key is pressed, else the lowest key ends the wait (R38). -/
def Obligations.StepWhileAwaitingAKey : Prop :=
  ∀ (s : State) (x : Reg), s.mode = .awaitingKey x →
    ((∀ k : Key, s.keys[k.val] = false) → step s = .next s) ∧
    (∀ k : Key, s.keys[k.val] = true → (∀ j : Key, j < k → s.keys[j.val] = false) →
      ∃ t, step s = .next t ∧ (t.reg x).toNat = k.val ∧ t.pc = s.pc + 2#16 ∧ t.mode = .running ∧
        (∀ j : Key, t.keys[j.val] = if s.config.consumesKey = true ∧ j = k then false else s.keys[j.val]) ∧
        KeepsAllBut (Parts [.reg x, .pc, .mode, .keys]) s t)

/-- A step in Faulted(e) changes no state and reports e again (10_state.md R39, 60_exceptions.md R177). -/
def Obligations.StepWhileFaultedChangesNothing : Prop :=
  ∀ (s : State) (e : Error) (started : Bool), s.mode = .faulted e →
    step s = .next s ∧ s.reported = some e ∧ (Session.call .step ⟨s, started⟩).2 = .error e

/-- Every instruction and every step answer a next state from every state (10_state.md R37, 10_state.md R39, 10_state.md R40, 30_encoding.md R76, 60_exceptions.md R176). -/
def Obligations.EveryInstructionAnswersANextState : Prop :=
  (∀ (i : Instr) (s : State), ∃ t, exec i s = .next t) ∧ (∀ s : State, ∃ t, step s = .next t)

/-- A step that raises an error changes nothing but the mode, and the error is reported (R176). -/
def Obligations.ErrorsArePrecise : Prop :=
  ∀ (s t : State) (e : Error) (started : Bool), step s = .next t → t.mode = .faulted e →
    t = { s with mode := .faulted e } ∧ (Session.call .step ⟨s, started⟩).2 = .error e

/-- No host call but a restart leaves Faulted; only timers and the pressed set still change, and a step changes nothing
(60_exceptions.md R177, R182; 10_state.md R39; 20_memory.md R62; 70_reset_and_hazards.md R197; log 12). -/
def Obligations.FaultedUntilRestart : Prop :=
  ∀ (calls : List HostCall) (n : Session) (e : Error), n.core.mode = .faulted e → n.started = true →
    (∀ c ∈ calls, c.keepsMachine = true) →
    (Session.run calls n).core.mode = .faulted e ∧
      KeepsAllBut (Parts [.delay, .sound, .keys]) n.core (Session.run calls n).core ∧
      (Session.run calls n).call .step = (Session.run calls n, .error e)

/-- A running step suspends exactly on Fx0A with no key pressed (10_state.md R36, 45_timers_input.md R161, 60_exceptions.md R188). -/
def Obligations.OnlyTheKeyWaitSuspends : Prop :=
  ∀ (s t : State) (x : Reg), s.mode = .running → step s = .next t →
    (t.mode = .awaitingKey x ↔ s.fetch = .ok (encode (.ldVxK x)) ∧ ∀ k : Key, s.keys[k.val] = false)

/-- No host call but a restart changes the configuration (10_state.md R31, 00_scope.md section 4). -/
def Obligations.ConfigurationIsFixedForTheRun : Prop :=
  ∀ (calls : List HostCall) (n : Session), (∀ c ∈ calls, c.keepsMachine = true) →
    (Session.run calls n).core.config = n.core.config

/-- Each instruction writes only the parts the spec names it a writer of (10_state.md R25, 10_state.md R26, 10_state.md R31, 10_state.md R32, 10_state.md R33, 10_state.md R34, 10_state.md R35, 20_memory.md R57, 42_skips.md R120, 41_control_flow.md R114). -/
def Obligations.EveryInstructionWritesOnlyItsParts : Prop :=
  ∀ (i : Instr) (s t : State), exec i s = .next t → KeepsAllBut (i.mayWrite s) s t

/-- The quirk flags change the semantics of 8xy6, 8xyE and Dxyn only (R77). -/
def Obligations.QuirkFlagsChangeOnlyShiftsAndDraw : Prop :=
  ∀ (i : Instr) (s : State) (b : Bool),
    (i.readsShiftQuirk = false → exec i (s.withShiftQuirk b) = mapNext (State.withShiftQuirk b) (exec i s)) ∧
    (i.readsWrapQuirk = false → exec i (s.withWrapQuirk b) = mapNext (State.withWrapQuirk b) (exec i s))

/-- Only Ex9E, ExA1 and Fx0A read the pressed set (10_state.md R34). -/
def Obligations.OnlyKeyInstructionsReadThePressedSet : Prop :=
  ∀ (i : Instr) (s : State) (p : Vector Bool 16), i.readsKeys = false →
    exec i (s.setKeys p) = mapNext (State.setKeys p) (exec i s)

/-- No instruction reads sound (10_state.md R33, 45_timers_input.md R163). -/
def Obligations.NoInstructionReadsTheSoundTimer : Prop :=
  ∀ (i : Instr) (s t : State) (b : Byte), exec i s = .next t →
    ∃ u, exec i (s.setSound b) = .next u ∧ KeepsAllBut (Parts [.sound]) t u

/-- A step's recorded display calls are appended in order and account for the grid (R100). -/
def Obligations.DisplayCallsDetermineTheGrid : Prop :=
  (∀ s t : State, step s = .next t →
    ∃ es, t.events = s.events ++ es ∧ t.grid = replay s.grid es ∧ reportsTruly s.grid es ∧
      (s.config.valid = true →
        ∀ e ∈ es, ∀ p, e.target = some p → p.1 < s.config.displayWidth ∧ p.2 < s.config.displayHeight)) ∧
  (∀ (g : Grid) (w h x y a b : Nat) (wasOn : Bool), g.hasSize w h = true → x < w → y < h →
    (DisplayEvent.clear.apply g).cell a b = false ∧
      ((DisplayEvent.flip x y wasOn).apply g).cell a b = (if a = x ∧ b = y then !g.cell x y else g.cell a b) ∧
      DisplayEvent.present.apply g = g)

/-- A step changes nothing in a machine parked on a jump to itself; a tick changes its timers only and leaves it Parked
(70_reset_and_hazards.md R200, 41_control_flow.md R111, 60_exceptions.md R182). -/
def Obligations.ParkedMachineStaysParked : Prop :=
  ∀ s : State, s.Parked → step s = .next s ∧ s.tick.Parked ∧ KeepsAllBut (Parts [.delay, .sound]) s s.tick

/-- Bytes an Fx55 stores are what a later fetch there reads (20_memory.md R65, 20_memory.md R63, 44_index_memory.md R154). -/
def Obligations.StoredBytesAreFetched : Prop :=
  ∀ (s : State) (x : Reg), s.mem.wf = true → s.i.toNat + x.val < s.config.memCapacity →
    ∃ t, exec (.stRegs x) s = .next t ∧
      ∀ k j : Reg, j < x → k.val = j.val + 1 → s.i.toNat + j.val < 2 ^ 16 →
        (t.setPc (BitVec.ofNat 16 (s.i.toNat + j.val))).fetch = .ok (composeWord (s.reg j) (s.reg k))

/-- 00E0 turns every cell off, calls clear and not present, and advances (R101). -/
def Obligations.ClearScreenTurnsEveryCellOff : Prop :=
  DecodesAs 0x00E0 0xFFFF (fun _ => .cls) ∧
  ∀ s : State, ∃ t, exec .cls s = .next t ∧ (∀ x y, t.grid.cell x y = false) ∧
    (∀ w h, s.grid.hasSize w h = true → t.grid.hasSize w h = true) ∧ t.events = s.events ++ [.clear] ∧
    t.pc = s.pc + 2#16 ∧ KeepsAllBut (Parts [.pc, .grid, .events]) s t

/-- Dxyn flips the sprite's cells in order, sets VF on collision, presents, advances (40_display.md R102, its pseudocode, flags and exceptions; 20_memory.md R54, 10_state.md R24; log 15). -/
def Obligations.DrawFlipsTheSpritesCellsInOrder : Prop :=
  DecodesAs 0xD000 0xF000 (fun op => .drw (fieldX op) (fieldY op) (fieldN op)) ∧
  ∀ (x y : Reg) (n : Nibble) (s : State),
    (n.toNat = 0 ∨ s.i.toNat + n.toNat ≤ s.config.memCapacity →
      ∃ (t : State) (flips : List DisplayEvent), exec (.drw x y n) s = .next t ∧
        flips.map DisplayEvent.target = (s.drawnCells x y n).map some ∧ reportsTruly s.grid flips ∧
        t.events = s.events ++ flips ++ [.present] ∧ t.grid = replay s.grid flips ∧
        t.reg VF = (if flips.any DisplayEvent.collided = true then 1#8 else 0#8) ∧ t.pc = s.pc + 2#16 ∧
        KeepsAllBut (Parts [.pc, .reg VF, .grid, .events]) s t) ∧
    (∀ k < n.toNat, s.config.memCapacity ≤ s.i.toNat + k → (∀ j < k, s.i.toNat + j < s.config.memCapacity) →
      exec (.drw x y n) s = .next { s with mode := .faulted (.outOfBounds (s.i.toNat + k)) })

/-- Without wrap, a draw toggles exactly the cells its set bits cover, and VF tells whether one was on (40_display.md R102, 40_display.md R100, 00_scope.md R13). -/
def Obligations.DrawWithoutWrapTogglesTheCoveredCells : Prop :=
  ∀ (x y : Reg) (n : Nibble) (s : State) (w h ox oy : Nat), w = s.config.displayWidth → h = s.config.displayHeight →
    s.config.spriteWraps = false → s.grid.hasSize w h = true → s.i.toNat + n.toNat ≤ s.config.memCapacity →
    ox = (s.reg x).toNat % w → oy = (s.reg y).toNat % h →
    ∃ t, exec (.drw x y n) s = .next t ∧
      (∀ cx < w, ∀ cy < h, t.grid.cell cx cy = (s.grid.cell cx cy != s.spriteCovers n.toNat ox oy cx cy)) ∧
      (t.reg VF = 1#8 ∨ t.reg VF = 0#8) ∧
      (t.reg VF = 1#8 ↔
        ∃ cx < w, ∃ cy < h, s.spriteCovers n.toNat ox oy cx cy = true ∧ s.grid.cell cx cy = true)

/-- With wrap, a draw toggles exactly the cells its set bits wrap onto, and VF tells whether one was on (40_display.md R102, 00_scope.md R13, 92_eei_decisions.md D15). -/
def Obligations.DrawWithWrapTogglesTheWrappedCells : Prop :=
  ∀ (x y : Reg) (n : Nibble) (s : State) (w h ox oy : Nat), w = s.config.displayWidth → h = s.config.displayHeight →
    s.config.spriteWraps = true → s.grid.hasSize w h = true → 8 ≤ w → n.toNat ≤ h → 0 < h →
    s.i.toNat + n.toNat ≤ s.config.memCapacity → ox = (s.reg x).toNat % w → oy = (s.reg y).toNat % h →
    ∃ t, exec (.drw x y n) s = .next t ∧
      (∀ cx < w, ∀ cy < h, (t.grid.cell cx cy ≠ s.grid.cell cx cy ↔
        ∃ row col, s.spriteWrapsOnto n.toNat ox oy cx cy row col)) ∧
      (t.reg VF = 1#8 ∨ t.reg VF = 0#8) ∧
      (t.reg VF = 1#8 ↔ ∃ cx cy row col,
        s.spriteWrapsOnto n.toNat ox oy cx cy row col ∧ s.grid.cell cx cy = true)

/-- Drawing the same sprite twice restores every cell; on cells that were off the second draw collides (40_display.md R102, 95_test_vectors.md section 1, entry 7). -/
def Obligations.DrawingTwiceRestoresTheGrid : Prop :=
  ∀ (x y : Reg) (n : Nibble) (s : State), x ≠ VF → y ≠ VF → s.i.toNat + n.toNat ≤ s.config.memCapacity →
    ∃ t u, exec (.drw x y n) s = .next t ∧ exec (.drw x y n) t = .next u ∧ u.grid = s.grid ∧
      (s.config.spriteWraps = false → s.grid.hasSize s.config.displayWidth s.config.displayHeight = true →
        s.drawnCells x y n ≠ [] → (∀ p ∈ s.drawnCells x y n, s.grid.cell p.1 p.2 = false) →
        t.reg VF = 0#8 ∧ u.reg VF = 1#8)

/-- Dxyn, Fx33, Fx55, Fx65 raise the lowest failing address before any effect (R54). -/
def Obligations.MemoryInstructionsCheckTheirRangeFirst : Prop :=
  ∀ (i : Instr) (n : Nat) (s : State),
    (∃ x y c, i = .drw x y c ∧ n = c.toNat) ∨ (∃ x, i = .ldB x ∧ n = 3) ∨
      (∃ x, i = .stRegs x ∧ n = x.val + 1) ∨ (∃ x, i = .ldRegs x ∧ n = x.val + 1) →
    (∀ k < n, s.config.memCapacity ≤ s.i.toNat + k → (∀ j < k, s.i.toNat + j < s.config.memCapacity) →
      exec i s = .next { s with mode := .faulted (.outOfBounds (s.i.toNat + k)) }) ∧
    ((∀ k < n, s.i.toNat + k < s.config.memCapacity) → ∃ t, exec i s = .next t ∧ t.mode = s.mode)

/-- 00EE sets PC to the popped address, or raises StackUnderflow (R110, R175). -/
def Obligations.ReturnPopsTheStackIntoPc : Prop :=
  DecodesAs 0x00EE 0xFFFF (fun _ => .ret) ∧
  (∀ (s : State) (w : Word) (rest : List Word), s.stack = w :: rest →
    ∃ t, exec .ret s = .next t ∧ t.pc = w ∧ t.stack = rest ∧ KeepsAllBut (Parts [.pc, .stack]) s t) ∧
  (∀ s : State, s.stack = [] → exec .ret s = .next { s with mode := .faulted .stackUnderflow })

/-- 2nnn pushes PC + 2 and sets PC to nnn, or raises StackOverflow (R112, R174). -/
def Obligations.CallPushesTheReturnAddress : Prop :=
  DecodesAs 0x2000 0xF000 (fun op => .call (fieldNNN op)) ∧
  ∀ (nnn : Addr12) (s : State),
    (s.stack.length < s.config.stackDepth →
      ∃ t, exec (.call nnn) s = .next t ∧ t.stack = (s.pc + 2#16) :: s.stack ∧ t.pc.toNat = nnn.toNat ∧
        KeepsAllBut (Parts [.pc, .stack]) s t) ∧
    (s.config.stackDepth ≤ s.stack.length →
      exec (.call nnn) s = .next { s with mode := .faulted .stackOverflow })

/-- 1nnn sets PC to nnn; Bnnn to nnn + V[0], not reduced to 12 bits (R111, R113). -/
def Obligations.JumpsSetPc : Prop :=
  DecodesAs 0x1000 0xF000 (fun op => .jp (fieldNNN op)) ∧
  DecodesAs 0xB000 0xF000 (fun op => .jpV0 (fieldNNN op)) ∧
  ∀ (nnn : Addr12) (s : State),
    (∃ t, exec (.jp nnn) s = .next t ∧ t.pc.toNat = nnn.toNat ∧ KeepsAllBut (Parts [.pc]) s t) ∧
    (∃ t, exec (.jpV0 nnn) s = .next t ∧ t.pc.toNat = nnn.toNat + (s.reg 0).toNat ∧ KeepsAllBut (Parts [.pc]) s t)

/-- 3xnn skips when V[x] = nn, 4xnn when V[x] differs from nn (R121, R122). -/
def Obligations.ByteSkipsCompareRegisterWithByte : Prop :=
  DecodesAs 0x3000 0xF000 (fun op => .seByte (fieldX op) (fieldNN op)) ∧
  DecodesAs 0x4000 0xF000 (fun op => .sneByte (fieldX op) (fieldNN op)) ∧
  ∀ (x : Reg) (nn : Byte) (s : State),
    (∃ t, exec (.seByte x nn) s = .next t ∧ t.pc = (if s.reg x = nn then s.pc + 4#16 else s.pc + 2#16) ∧
      KeepsAllBut (Parts [.pc]) s t) ∧
    (∃ t, exec (.sneByte x nn) s = .next t ∧ t.pc = (if s.reg x = nn then s.pc + 2#16 else s.pc + 4#16) ∧
      KeepsAllBut (Parts [.pc]) s t)

/-- 5xy0 skips when V[x] = V[y], 9xy0 when they differ (R123, R124). -/
def Obligations.RegisterSkipsCompareTwoRegisters : Prop :=
  DecodesAs 0x5000 0xF00F (fun op => .seReg (fieldX op) (fieldY op)) ∧
  DecodesAs 0x9000 0xF00F (fun op => .sneReg (fieldX op) (fieldY op)) ∧
  (∀ op : Word, fieldA op = 0x5#4 ∨ fieldA op = 0x9#4 → fieldN op ≠ 0x0#4 → decode op = .error (.unknownOpcode op)) ∧
  ∀ (x y : Reg) (s : State),
    (∃ t, exec (.seReg x y) s = .next t ∧ t.pc = (if s.reg x = s.reg y then s.pc + 4#16 else s.pc + 2#16) ∧
      KeepsAllBut (Parts [.pc]) s t) ∧
    (∃ t, exec (.sneReg x y) s = .next t ∧ t.pc = (if s.reg x = s.reg y then s.pc + 2#16 else s.pc + 4#16) ∧
      KeepsAllBut (Parts [.pc]) s t)

/-- Ex9E skips when key V[x] is pressed, ExA1 when it is not; above 0xF no key is pressed (R125, R126). -/
def Obligations.KeySkipsTestThePressedSet : Prop :=
  DecodesAs 0xE09E 0xF0FF (fun op => .skp (fieldX op)) ∧
  DecodesAs 0xE0A1 0xF0FF (fun op => .sknp (fieldX op)) ∧
  ∀ (x : Reg) (s : State) (down : Prop), (down ↔ ∃ k : Key, (s.reg x).toNat = k.val ∧ s.keys[k.val] = true) →
    (∃ t, exec (.skp x) s = .next t ∧ (down → t.pc = s.pc + 4#16) ∧ (¬down → t.pc = s.pc + 2#16) ∧
      KeepsAllBut (Parts [.pc]) s t) ∧
    (∃ t, exec (.sknp x) s = .next t ∧ (down → t.pc = s.pc + 2#16) ∧ (¬down → t.pc = s.pc + 4#16) ∧
      KeepsAllBut (Parts [.pc]) s t)

/-- 6xnn stores nn in V[x]; 7xnn adds nn modulo 256 without a flag (R131, R132). -/
def Obligations.ByteLoadAndAdd : Prop :=
  DecodesAs 0x6000 0xF000 (fun op => .ldByte (fieldX op) (fieldNN op)) ∧
  DecodesAs 0x7000 0xF000 (fun op => .addByte (fieldX op) (fieldNN op)) ∧
  ∀ (x : Reg) (nn : Byte) (s : State),
    (∃ t, exec (.ldByte x nn) s = .next t ∧ t.reg x = nn ∧ t.pc = s.pc + 2#16 ∧
      KeepsAllBut (Parts [.pc, .reg x]) s t) ∧
    (∃ t, exec (.addByte x nn) s = .next t ∧ (t.reg x).toNat = ((s.reg x).toNat + nn.toNat) % 256 ∧
      t.pc = s.pc + 2#16 ∧ KeepsAllBut (Parts [.pc, .reg x]) s t)

/-- 8xy0 copies V[y]; 8xy1, 8xy2, 8xy3 are or, and, exclusive or; VF is not reset (R133, R134, R135, R136). -/
def Obligations.CopyAndLogic : Prop :=
  DecodesAs 0x8000 0xF00F (fun op => .ldReg (fieldX op) (fieldY op)) ∧
  DecodesAs 0x8001 0xF00F (fun op => .orReg (fieldX op) (fieldY op)) ∧
  DecodesAs 0x8002 0xF00F (fun op => .andReg (fieldX op) (fieldY op)) ∧
  DecodesAs 0x8003 0xF00F (fun op => .xorReg (fieldX op) (fieldY op)) ∧
  ∀ (x y : Reg) (s : State),
    (∃ t, exec (.ldReg x y) s = .next t ∧ t.reg x = s.reg y ∧ t.pc = s.pc + 2#16 ∧
      KeepsAllBut (Parts [.pc, .reg x]) s t) ∧
    (∃ t, exec (.orReg x y) s = .next t ∧ t.pc = s.pc + 2#16 ∧ KeepsAllBut (Parts [.pc, .reg x]) s t ∧
      ∀ b < 8, (t.reg x).getLsbD b = ((s.reg x).getLsbD b || (s.reg y).getLsbD b)) ∧
    (∃ t, exec (.andReg x y) s = .next t ∧ t.pc = s.pc + 2#16 ∧ KeepsAllBut (Parts [.pc, .reg x]) s t ∧
      ∀ b < 8, (t.reg x).getLsbD b = ((s.reg x).getLsbD b && (s.reg y).getLsbD b)) ∧
    (∃ t, exec (.xorReg x y) s = .next t ∧ t.pc = s.pc + 2#16 ∧ KeepsAllBut (Parts [.pc, .reg x]) s t ∧
      ∀ b < 8, (t.reg x).getLsbD b = ((s.reg x).getLsbD b != (s.reg y).getLsbD b))

/-- 8xy4 adds modulo 256 with VF the carry, written last (R137). -/
def Obligations.AddSetsCarry : Prop :=
  DecodesAs 0x8004 0xF00F (fun op => .addReg (fieldX op) (fieldY op)) ∧
  ∀ (x y : Reg) (s : State) (vx vy : Nat), vx = (s.reg x).toNat → vy = (s.reg y).toNat →
    ∃ t, exec (.addReg x y) s = .next t ∧ (x ≠ VF → (t.reg x).toNat = (vx + vy) % 256) ∧
      t.reg VF = (if 255 < vx + vy then 1#8 else 0#8) ∧ t.pc = s.pc + 2#16 ∧
      KeepsAllBut (Parts [.pc, .reg x, .reg VF]) s t

/-- 8xy5 and 8xy7 subtract modulo 256 with VF = not borrow, written last (R138, R140). -/
def Obligations.SubtractionsSetNotBorrow : Prop :=
  DecodesAs 0x8005 0xF00F (fun op => .subReg (fieldX op) (fieldY op)) ∧
  DecodesAs 0x8007 0xF00F (fun op => .subn (fieldX op) (fieldY op)) ∧
  ∀ (x y : Reg) (s : State) (vx vy : Nat), vx = (s.reg x).toNat → vy = (s.reg y).toNat →
    (∃ t, exec (.subReg x y) s = .next t ∧ (x ≠ VF → (t.reg x).toNat = (vx + 256 - vy) % 256) ∧
      t.reg VF = (if vy ≤ vx then 1#8 else 0#8) ∧ t.pc = s.pc + 2#16 ∧
      KeepsAllBut (Parts [.pc, .reg x, .reg VF]) s t) ∧
    (∃ t, exec (.subn x y) s = .next t ∧ (x ≠ VF → (t.reg x).toNat = (vy + 256 - vx) % 256) ∧
      t.reg VF = (if vx ≤ vy then 1#8 else 0#8) ∧ t.pc = s.pc + 2#16 ∧
      KeepsAllBut (Parts [.pc, .reg x, .reg VF]) s t)

/-- 8xy6 and 8xyE shift V[y] (or V[x] by the quirk) by one, VF the bit shifted out, written last (R139, R141). -/
def Obligations.ShiftsSetTheBitShiftedOut : Prop :=
  DecodesAs 0x8006 0xF00F (fun op => .shr (fieldX op) (fieldY op)) ∧
  DecodesAs 0x800E 0xF00F (fun op => .shl (fieldX op) (fieldY op)) ∧
  ∀ (x y : Reg) (s : State) (v : Nat), v = (if s.config.shiftUsesVy = true then s.reg y else s.reg x).toNat →
    (∃ t, exec (.shr x y) s = .next t ∧ (x ≠ VF → (t.reg x).toNat = v / 2) ∧ (t.reg VF).toNat = v % 2 ∧
      t.pc = s.pc + 2#16 ∧ KeepsAllBut (Parts [.pc, .reg x, .reg VF]) s t) ∧
    (∃ t, exec (.shl x y) s = .next t ∧ (x ≠ VF → (t.reg x).toNat = 2 * v % 256) ∧ (t.reg VF).toNat = v / 128 ∧
      t.pc = s.pc + 2#16 ∧ KeepsAllBut (Parts [.pc, .reg x, .reg VF]) s t)

/-- Cxnn stores a freely drawn byte masked by nn (43_alu.md R142). The form of the draw, the byte `drawnByte` indexed by
the counter `draws` that the step advances, is the model's choice (log 8). -/
def Obligations.RandomByteIsMasked : Prop :=
  DecodesAs 0xC000 0xF000 (fun op => .rnd (fieldX op) (fieldNN op)) ∧
  ∀ (x : Reg) (nn : Byte) (s : State),
    ∃ (t : State) (r : Byte), r = s.drawnByte ∧ exec (.rnd x nn) s = .next t ∧ t.reg x = r &&& nn ∧
      (∀ b < 8, nn.getLsbD b = false → (t.reg x).getLsbD b = false) ∧ t.draws = s.draws + 1 ∧
      t.pc = s.pc + 2#16 ∧ KeepsAllBut (Parts [.pc, .reg x, .draws]) s t

/-- After 8xy4 to 8xy7, 8xyE and Dxyn without an error VF is 0 or 1, whatever the operands (10_state.md R24, 10_state.md R30, 70_reset_and_hazards.md R194). -/
def Obligations.FlagInstructionsLeaveABitInVf : Prop :=
  ∀ (x y : Reg) (n : Nibble) (i : Instr) (s t : State),
    i ∈ [Instr.addReg x y, .subReg x y, .shr x y, .subn x y, .shl x y, .drw x y n] →
    exec i s = .next t → t.mode = s.mode → s.mode = .running → t.reg VF = 0#8 ∨ t.reg VF = 1#8

/-- Annn, Fx1E, Fx29 set I to nnn, I + V[x], FONT_BASE + 5 V[x], modulo 4096 (R150, R151, R152). -/
def Obligations.IndexInstructionsSetIModulo4096 : Prop :=
  DecodesAs 0xA000 0xF000 (fun op => .ldI (fieldNNN op)) ∧
  DecodesAs 0xF01E 0xF0FF (fun op => .addI (fieldX op)) ∧
  DecodesAs 0xF029 0xF0FF (fun op => .ldF (fieldX op)) ∧
  ∀ (nnn : Addr12) (x : Reg) (s : State),
    (∃ t, exec (.ldI nnn) s = .next t ∧ t.i.toNat = nnn.toNat ∧ t.pc = s.pc + 2#16 ∧
      KeepsAllBut (Parts [.pc, .index]) s t) ∧
    (∃ t, exec (.addI x) s = .next t ∧ t.i.toNat = (s.i.toNat + (s.reg x).toNat) % 4096 ∧ t.pc = s.pc + 2#16 ∧
      KeepsAllBut (Parts [.pc, .index]) s t) ∧
    (∃ t, exec (.ldF x) s = .next t ∧ t.i.toNat = (s.config.fontBase + (s.reg x).toNat * 5) % 4096 ∧
      t.pc = s.pc + 2#16 ∧ KeepsAllBut (Parts [.pc, .index]) s t)

/-- Fx33 stores hundreds, tens and ones of V[x] at I, I + 1, I + 2, or raises OutOfBounds (R153). -/
def Obligations.DecimalDigitsAreStored : Prop :=
  DecodesAs 0xF033 0xF0FF (fun op => .ldB (fieldX op)) ∧
  ∀ (x : Reg) (s : State) (v : Nat), v = (s.reg x).toNat →
    (s.mem.wf = true → s.i.toNat + 2 < s.config.memCapacity →
      ∃ t, exec (.ldB x) s = .next t ∧ (t.mem.read s.i.toNat).toNat = v / 100 ∧
        (t.mem.read (s.i.toNat + 1)).toNat = v / 10 % 10 ∧ (t.mem.read (s.i.toNat + 2)).toNat = v % 10 ∧
        t.pc = s.pc + 2#16 ∧ KeepsAllBut (PartsAndBytes [.pc] s.i.toNat 3) s t) ∧
    (∀ k < 3, s.config.memCapacity ≤ s.i.toNat + k → (∀ j < k, s.i.toNat + j < s.config.memCapacity) →
      exec (.ldB x) s = .next { s with mode := .faulted (.outOfBounds (s.i.toNat + k)) })

/-- Fx55 stores V[0] to V[x] at I onward, I unchanged, or raises OutOfBounds (R154). -/
def Obligations.RegistersAreStoredFromIOn : Prop :=
  DecodesAs 0xF055 0xF0FF (fun op => .stRegs (fieldX op)) ∧
  ∀ (x : Reg) (s : State),
    (s.mem.wf = true → s.i.toNat + x.val < s.config.memCapacity →
      ∃ t, exec (.stRegs x) s = .next t ∧ (∀ r : Reg, r ≤ x → t.mem.read (s.i.toNat + r.val) = s.reg r) ∧
        t.pc = s.pc + 2#16 ∧ KeepsAllBut (PartsAndBytes [.pc] s.i.toNat (x.val + 1)) s t) ∧
    (∀ k ≤ x.val, s.config.memCapacity ≤ s.i.toNat + k → (∀ j < k, s.i.toNat + j < s.config.memCapacity) →
      exec (.stRegs x) s = .next { s with mode := .faulted (.outOfBounds (s.i.toNat + k)) })

/-- Fx65 loads V[0] to V[x] from I onward, I unchanged, or raises OutOfBounds (R155). -/
def Obligations.RegistersAreLoadedFromIOn : Prop :=
  DecodesAs 0xF065 0xF0FF (fun op => .ldRegs (fieldX op)) ∧
  (∀ (x : Reg) (s : State),
    (s.i.toNat + x.val < s.config.memCapacity →
      ∃ t, exec (.ldRegs x) s = .next t ∧ (∀ r : Reg, r ≤ x → t.reg r = s.mem.read (s.i.toNat + r.val)) ∧
        t.pc = s.pc + 2#16 ∧ KeepsAllBut (PartsAndRegs [.pc] x) s t) ∧
    (∀ k ≤ x.val, s.config.memCapacity ≤ s.i.toNat + k → (∀ j < k, s.i.toNat + j < s.config.memCapacity) →
      exec (.ldRegs x) s = .next { s with mode := .faulted (.outOfBounds (s.i.toNat + k)) }))

/-- Fx55 then Fx65 with the same I and x restores V[0] to V[x] (44_index_memory.md R154, 44_index_memory.md R155, 95_test_vectors.md section 1, entry 6). -/
def Obligations.StoreThenLoadRestoresTheRegisters : Prop :=
  ∀ (x : Reg) (s : State), s.mem.wf = true → s.i.toNat + x.val < s.config.memCapacity →
    ∃ t, exec (.stRegs x) s = .next t ∧
      ∀ u : State, u.i = t.i → u.config.memCapacity = t.config.memCapacity →
        (∀ k ≤ x.val, u.mem.read (t.i.toNat + k) = t.mem.read (t.i.toNat + k)) →
        ∃ w, exec (.ldRegs x) u = .next w ∧ ∀ r : Reg, r ≤ x → w.reg r = s.reg r

/-- Fx07 reads delay; Fx15 writes delay; Fx18 writes sound (R160, R162, R163). -/
def Obligations.TimerInstructionsMoveBytes : Prop :=
  DecodesAs 0xF007 0xF0FF (fun op => .ldVxDt (fieldX op)) ∧
  DecodesAs 0xF015 0xF0FF (fun op => .ldDtVx (fieldX op)) ∧
  DecodesAs 0xF018 0xF0FF (fun op => .ldStVx (fieldX op)) ∧
  ∀ (x : Reg) (s : State),
    (∃ t, exec (.ldVxDt x) s = .next t ∧ t.reg x = s.delay ∧ t.pc = s.pc + 2#16 ∧
      KeepsAllBut (Parts [.pc, .reg x]) s t) ∧
    (∃ t, exec (.ldDtVx x) s = .next t ∧ t.delay = s.reg x ∧ t.pc = s.pc + 2#16 ∧
      KeepsAllBut (Parts [.pc, .delay]) s t) ∧
    (∃ t, exec (.ldStVx x) s = .next t ∧ t.sound = s.reg x ∧ t.pc = s.pc + 2#16 ∧
      KeepsAllBut (Parts [.pc, .sound]) s t)

/-- Fx0A stores the lowest pressed key, or suspends with only the mode changed (45_timers_input.md R161, 00_scope.md R14, 10_state.md R37). -/
def Obligations.KeyWaitTakesTheLowestKeyOrSuspends : Prop :=
  DecodesAs 0xF00A 0xF0FF (fun op => .ldVxK (fieldX op)) ∧
  ∀ (x : Reg) (s : State),
    ((∀ k : Key, s.keys[k.val] = false) → exec (.ldVxK x) s = .next { s with mode := .awaitingKey x }) ∧
    (∀ k : Key, s.keys[k.val] = true → (∀ j : Key, j < k → s.keys[j.val] = false) →
      ∃ t, exec (.ldVxK x) s = .next t ∧ (t.reg x).toNat = k.val ∧ t.pc = s.pc + 2#16 ∧
        (∀ j : Key, t.keys[j.val] = if s.config.consumesKey = true ∧ j = k then false else s.keys[j.val]) ∧
        KeepsAllBut (Parts [.reg x, .pc, .keys]) s t)

/-- tick() lowers each nonzero timer by 1, floors at 0, and changes nothing else, in every mode (60_exceptions.md R182, 10_state.md R33). -/
def Obligations.TickDecrementsBothTimers : Prop :=
  ∀ s : State, s.tick.delay.toNat = s.delay.toNat - 1 ∧ s.tick.sound.toNat = s.sound.toNat - 1 ∧
    KeepsAllBut (Parts [.delay, .sound]) s s.tick

/-- n ticks lower each timer by n, never below 0, also while waiting or faulted (60_exceptions.md R182, 45_timers_input.md R162, 45_timers_input.md R163). -/
def Obligations.TicksCountTimersDownToZero : Prop :=
  ∀ (k : Nat) (n m : Session), m = Session.run (List.replicate k .tick) n →
    m.core.delay.toNat = n.core.delay.toNat - k ∧ m.core.sound.toNat = n.core.sound.toNat - k ∧
      m.started = n.started ∧ KeepsAllBut (Parts [.delay, .sound]) n.core m.core

/-- load(bytes, offset) copies the bytes, or reports CapacityExceeded and changes nothing (R61, R171). -/
def Obligations.LoadCopiesAllOrNothing : Prop :=
  ∀ (bytes : List Byte) (offset : Nat) (s : State),
    (s.config.memCapacity < offset + bytes.length →
      Session.call (.load bytes offset) ⟨s, false⟩ = (⟨s, false⟩, .error (.capacityExceeded offset bytes.length))) ∧
    (offset + bytes.length ≤ s.config.memCapacity → s.mem.wf = true →
      ∃ t, Session.call (.load bytes offset) ⟨s, false⟩ = (⟨t, false⟩, .nothing) ∧
        (∀ (k : Nat) (hk : k < bytes.length), t.mem.read (offset + k) = bytes[k]) ∧
        KeepsAllBut (PartsAndBytes [] offset bytes.length) s t)

/-- Once a step has run, load is refused and changes nothing until a restart (20_memory.md R62, 92_eei_decisions.md D22). -/
def Obligations.LoadIsAdmittedOnlyBeforeTheFirstStep : Prop :=
  ∀ (n : Session) (calls : List HostCall) (bytes : List Byte) (offset : Nat),
    (∀ c ∈ calls, c.keepsMachine = true) →
    Session.call (.load bytes offset) (Session.run calls (n.call .step).1) =
      (Session.run calls (n.call .step).1, .notAdmitted .loadAfterFirstStep)
end

