-- ==== Sys2Proof/Laws/Decode.lean ====
section
/-! SUPPORT. The fields of a word and the words of the three shapes: each field reads back what the shape put there, a
word is its fields put together, and the masks of 30_encoding.md R73 select fields. -/

namespace Sys2Proof

/-- The bits of a register field, as a register number again. -/
@[simp] theorem regBits_toFin (r : Reg) : (regBits r).toFin = r := rfl

theorem regBits_fieldX (op : Word) : regBits (fieldX op) = op.extractLsb' 8 4 := rfl

theorem regBits_fieldY (op : Word) : regBits (fieldY op) = op.extractLsb' 4 4 := rfl

theorem fieldX_eq (op : Word) {r : Reg} (h : op.extractLsb' 8 4 = regBits r) : fieldX op = r := by
  rw [fieldX, h, regBits_toFin]

theorem fieldY_eq (op : Word) {r : Reg} (h : op.extractLsb' 4 4 = regBits r) : fieldY op = r := by
  rw [fieldY, h, regBits_toFin]

@[simp] theorem fieldA_wordNNN (a : Nibble) (nnn : Addr12) : fieldA (wordNNN a nnn) = a := by
  ext i hi
  simp only [fieldA, wordNNN]
  interval_cases i <;> simp

@[simp] theorem fieldNNN_wordNNN (a : Nibble) (nnn : Addr12) : fieldNNN (wordNNN a nnn) = nnn := by
  ext i hi
  simp only [fieldNNN, wordNNN]
  interval_cases i <;> simp

@[simp] theorem fieldA_wordXNN (a : Nibble) (x : Reg) (nn : Byte) : fieldA (wordXNN a x nn) = a := by
  ext i hi
  simp only [fieldA, wordXNN]
  interval_cases i <;> simp

@[simp] theorem fieldX_wordXNN (a : Nibble) (x : Reg) (nn : Byte) : fieldX (wordXNN a x nn) = x := by
  apply fieldX_eq
  ext i hi
  simp only [wordXNN]
  interval_cases i <;> simp

@[simp] theorem fieldNN_wordXNN (a : Nibble) (x : Reg) (nn : Byte) : fieldNN (wordXNN a x nn) = nn := by
  ext i hi
  simp only [fieldNN, wordXNN]
  interval_cases i <;> simp

@[simp] theorem fieldA_wordXYN (a : Nibble) (x y : Reg) (d : Nibble) : fieldA (wordXYN a x y d) = a := by
  ext i hi
  simp only [fieldA, wordXYN]
  interval_cases i <;> simp

@[simp] theorem fieldX_wordXYN (a : Nibble) (x y : Reg) (d : Nibble) : fieldX (wordXYN a x y d) = x := by
  apply fieldX_eq
  ext i hi
  simp only [wordXYN]
  interval_cases i <;> simp

@[simp] theorem fieldY_wordXYN (a : Nibble) (x y : Reg) (d : Nibble) : fieldY (wordXYN a x y d) = y := by
  apply fieldY_eq
  ext i hi
  simp only [wordXYN]
  interval_cases i <;> simp

@[simp] theorem fieldN_wordXYN (a : Nibble) (x y : Reg) (d : Nibble) : fieldN (wordXYN a x y d) = d := by
  ext i hi
  simp only [fieldN, wordXYN]
  interval_cases i <;> simp

/-- A word is its first nibble and its address field. -/
theorem wordNNN_fields (op : Word) : wordNNN (fieldA op) (fieldNNN op) = op := by
  ext i hi
  simp only [wordNNN, fieldA, fieldNNN]
  interval_cases i <;> simp

/-- A word is its first nibble, its register field and its low byte. -/
theorem wordXNN_fields (op : Word) : wordXNN (fieldA op) (fieldX op) (fieldNN op) = op := by
  ext i hi
  simp only [wordXNN, regBits_fieldX, fieldA, fieldNN]
  interval_cases i <;> simp

/-- A word is its four nibbles. -/
theorem wordXYN_fields (op : Word) : wordXYN (fieldA op) (fieldX op) (fieldY op) (fieldN op) = op := by
  ext i hi
  simp only [wordXYN, regBits_fieldX, regBits_fieldY, fieldA, fieldN]
  interval_cases i <;> simp

/-- The mask `F000` keeps the first nibble. -/
theorem fieldA_mask_F000 (op : Word) : fieldA (op &&& 0xF000#16) = fieldA op := by
  ext i hi
  simp only [fieldA]
  interval_cases i <;> simp

/-- The mask `F00F` keeps the first and the last nibble. -/
theorem fields_mask_F00F (op : Word) :
    fieldA (op &&& 0xF00F#16) = fieldA op ∧ fieldN (op &&& 0xF00F#16) = fieldN op := by
  constructor
  · ext i hi
    simp only [fieldA]
    interval_cases i <;> simp
  · ext i hi
    simp only [fieldN]
    interval_cases i <;> simp

/-- The mask `F0FF` keeps the first nibble and the low byte. -/
theorem fields_mask_F0FF (op : Word) :
    fieldA (op &&& 0xF0FF#16) = fieldA op ∧ fieldNN (op &&& 0xF0FF#16) = fieldNN op := by
  constructor
  · ext i hi
    simp only [fieldA]
    interval_cases i <;> simp
  · ext i hi
    simp only [fieldNN]
    interval_cases i <;> simp

/-- A word laid out as two bytes and composed again is itself (20_memory.md R55). -/
@[simp] theorem composeWord_bytes (op : Word) : composeWord (highByte op) (lowByte op) = op := by
  ext i hi
  simp only [composeWord, highByte, lowByte]
  interval_cases i <;> simp

@[simp] theorem highByte_composeWord (hi lo : Byte) : highByte (composeWord hi lo) = hi := by
  ext i h
  simp only [composeWord, highByte]
  interval_cases i <;> simp

@[simp] theorem lowByte_composeWord (hi lo : Byte) : lowByte (composeWord hi lo) = lo := by
  ext i h
  simp only [composeWord, lowByte]
  interval_cases i <;> simp

/-- Every term of `Instr` is well formed: the operand types have the fields' widths. -/
theorem Instr.wellFormed_eq_true (i : Instr) : i.wellFormed = true := by
  cases i <;> simp [Instr.wellFormed, fitsField] <;> omega

end Sys2Proof
end

