-- ==== Sys2Proof/Laws/State.lean ====
section
/-! SUPPORT. One lemma per field per update of State, each true by `rfl`, so that no proof unfolds a record update. -/

namespace Sys2Proof.Machine

variable (s : State)

@[simp] theorem State.setReg_v (r : Reg) (x : Byte) : (s.setReg r x).v = s.v.set r.val x := rfl
@[simp] theorem State.setReg_i (r : Reg) (x : Byte) : (s.setReg r x).i = s.i := rfl
@[simp] theorem State.setReg_pc (r : Reg) (x : Byte) : (s.setReg r x).pc = s.pc := rfl
@[simp] theorem State.setReg_stack (r : Reg) (x : Byte) : (s.setReg r x).stack = s.stack := rfl
@[simp] theorem State.setReg_delay (r : Reg) (x : Byte) : (s.setReg r x).delay = s.delay := rfl
@[simp] theorem State.setReg_sound (r : Reg) (x : Byte) : (s.setReg r x).sound = s.sound := rfl
@[simp] theorem State.setReg_mode (r : Reg) (x : Byte) : (s.setReg r x).mode = s.mode := rfl
@[simp] theorem State.setReg_mem (r : Reg) (x : Byte) : (s.setReg r x).mem = s.mem := rfl
@[simp] theorem State.setReg_keys (r : Reg) (x : Byte) : (s.setReg r x).keys = s.keys := rfl
@[simp] theorem State.setReg_grid (r : Reg) (x : Byte) : (s.setReg r x).grid = s.grid := rfl
@[simp] theorem State.setReg_events (r : Reg) (x : Byte) : (s.setReg r x).events = s.events := rfl
@[simp] theorem State.setReg_config (r : Reg) (x : Byte) : (s.setReg r x).config = s.config := rfl
@[simp] theorem State.setReg_draws (r : Reg) (x : Byte) : (s.setReg r x).draws = s.draws := rfl

@[simp] theorem State.setI_v (w : Word) : (s.setI w).v = s.v := rfl
@[simp] theorem State.setI_i (w : Word) : (s.setI w).i = w &&& 0xFFF#16 := rfl
@[simp] theorem State.setI_pc (w : Word) : (s.setI w).pc = s.pc := rfl
@[simp] theorem State.setI_stack (w : Word) : (s.setI w).stack = s.stack := rfl
@[simp] theorem State.setI_delay (w : Word) : (s.setI w).delay = s.delay := rfl
@[simp] theorem State.setI_sound (w : Word) : (s.setI w).sound = s.sound := rfl
@[simp] theorem State.setI_mode (w : Word) : (s.setI w).mode = s.mode := rfl
@[simp] theorem State.setI_mem (w : Word) : (s.setI w).mem = s.mem := rfl
@[simp] theorem State.setI_keys (w : Word) : (s.setI w).keys = s.keys := rfl
@[simp] theorem State.setI_grid (w : Word) : (s.setI w).grid = s.grid := rfl
@[simp] theorem State.setI_events (w : Word) : (s.setI w).events = s.events := rfl
@[simp] theorem State.setI_config (w : Word) : (s.setI w).config = s.config := rfl
@[simp] theorem State.setI_draws (w : Word) : (s.setI w).draws = s.draws := rfl
@[simp] theorem State.setI_reg (w : Word) (q : Reg) : (s.setI w).reg q = s.reg q := rfl

@[simp] theorem State.setPc_v (w : Word) : (s.setPc w).v = s.v := rfl
@[simp] theorem State.setPc_i (w : Word) : (s.setPc w).i = s.i := rfl
@[simp] theorem State.setPc_pc (w : Word) : (s.setPc w).pc = w := rfl
@[simp] theorem State.setPc_stack (w : Word) : (s.setPc w).stack = s.stack := rfl
@[simp] theorem State.setPc_delay (w : Word) : (s.setPc w).delay = s.delay := rfl
@[simp] theorem State.setPc_sound (w : Word) : (s.setPc w).sound = s.sound := rfl
@[simp] theorem State.setPc_mode (w : Word) : (s.setPc w).mode = s.mode := rfl
@[simp] theorem State.setPc_mem (w : Word) : (s.setPc w).mem = s.mem := rfl
@[simp] theorem State.setPc_keys (w : Word) : (s.setPc w).keys = s.keys := rfl
@[simp] theorem State.setPc_grid (w : Word) : (s.setPc w).grid = s.grid := rfl
@[simp] theorem State.setPc_events (w : Word) : (s.setPc w).events = s.events := rfl
@[simp] theorem State.setPc_config (w : Word) : (s.setPc w).config = s.config := rfl
@[simp] theorem State.setPc_draws (w : Word) : (s.setPc w).draws = s.draws := rfl
@[simp] theorem State.setPc_reg (w : Word) (q : Reg) : (s.setPc w).reg q = s.reg q := rfl

@[simp] theorem State.setStack_v (st : List Word) : (s.setStack st).v = s.v := rfl
@[simp] theorem State.setStack_i (st : List Word) : (s.setStack st).i = s.i := rfl
@[simp] theorem State.setStack_pc (st : List Word) : (s.setStack st).pc = s.pc := rfl
@[simp] theorem State.setStack_stack (st : List Word) : (s.setStack st).stack = st := rfl
@[simp] theorem State.setStack_delay (st : List Word) : (s.setStack st).delay = s.delay := rfl
@[simp] theorem State.setStack_sound (st : List Word) : (s.setStack st).sound = s.sound := rfl
@[simp] theorem State.setStack_mode (st : List Word) : (s.setStack st).mode = s.mode := rfl
@[simp] theorem State.setStack_mem (st : List Word) : (s.setStack st).mem = s.mem := rfl
@[simp] theorem State.setStack_keys (st : List Word) : (s.setStack st).keys = s.keys := rfl
@[simp] theorem State.setStack_grid (st : List Word) : (s.setStack st).grid = s.grid := rfl
@[simp] theorem State.setStack_events (st : List Word) : (s.setStack st).events = s.events := rfl
@[simp] theorem State.setStack_config (st : List Word) : (s.setStack st).config = s.config := rfl
@[simp] theorem State.setStack_draws (st : List Word) : (s.setStack st).draws = s.draws := rfl
@[simp] theorem State.setStack_reg (st : List Word) (q : Reg) : (s.setStack st).reg q = s.reg q := rfl

@[simp] theorem State.setDelay_v (x : Byte) : (s.setDelay x).v = s.v := rfl
@[simp] theorem State.setDelay_i (x : Byte) : (s.setDelay x).i = s.i := rfl
@[simp] theorem State.setDelay_pc (x : Byte) : (s.setDelay x).pc = s.pc := rfl
@[simp] theorem State.setDelay_stack (x : Byte) : (s.setDelay x).stack = s.stack := rfl
@[simp] theorem State.setDelay_delay (x : Byte) : (s.setDelay x).delay = x := rfl
@[simp] theorem State.setDelay_sound (x : Byte) : (s.setDelay x).sound = s.sound := rfl
@[simp] theorem State.setDelay_mode (x : Byte) : (s.setDelay x).mode = s.mode := rfl
@[simp] theorem State.setDelay_mem (x : Byte) : (s.setDelay x).mem = s.mem := rfl
@[simp] theorem State.setDelay_keys (x : Byte) : (s.setDelay x).keys = s.keys := rfl
@[simp] theorem State.setDelay_grid (x : Byte) : (s.setDelay x).grid = s.grid := rfl
@[simp] theorem State.setDelay_events (x : Byte) : (s.setDelay x).events = s.events := rfl
@[simp] theorem State.setDelay_config (x : Byte) : (s.setDelay x).config = s.config := rfl
@[simp] theorem State.setDelay_draws (x : Byte) : (s.setDelay x).draws = s.draws := rfl
@[simp] theorem State.setDelay_reg (x : Byte) (q : Reg) : (s.setDelay x).reg q = s.reg q := rfl

@[simp] theorem State.setSound_v (x : Byte) : (s.setSound x).v = s.v := rfl
@[simp] theorem State.setSound_i (x : Byte) : (s.setSound x).i = s.i := rfl
@[simp] theorem State.setSound_pc (x : Byte) : (s.setSound x).pc = s.pc := rfl
@[simp] theorem State.setSound_stack (x : Byte) : (s.setSound x).stack = s.stack := rfl
@[simp] theorem State.setSound_delay (x : Byte) : (s.setSound x).delay = s.delay := rfl
@[simp] theorem State.setSound_sound (x : Byte) : (s.setSound x).sound = x := rfl
@[simp] theorem State.setSound_mode (x : Byte) : (s.setSound x).mode = s.mode := rfl
@[simp] theorem State.setSound_mem (x : Byte) : (s.setSound x).mem = s.mem := rfl
@[simp] theorem State.setSound_keys (x : Byte) : (s.setSound x).keys = s.keys := rfl
@[simp] theorem State.setSound_grid (x : Byte) : (s.setSound x).grid = s.grid := rfl
@[simp] theorem State.setSound_events (x : Byte) : (s.setSound x).events = s.events := rfl
@[simp] theorem State.setSound_config (x : Byte) : (s.setSound x).config = s.config := rfl
@[simp] theorem State.setSound_draws (x : Byte) : (s.setSound x).draws = s.draws := rfl
@[simp] theorem State.setSound_reg (x : Byte) (q : Reg) : (s.setSound x).reg q = s.reg q := rfl

@[simp] theorem State.setMode_v (m : Mode) : (s.setMode m).v = s.v := rfl
@[simp] theorem State.setMode_i (m : Mode) : (s.setMode m).i = s.i := rfl
@[simp] theorem State.setMode_pc (m : Mode) : (s.setMode m).pc = s.pc := rfl
@[simp] theorem State.setMode_stack (m : Mode) : (s.setMode m).stack = s.stack := rfl
@[simp] theorem State.setMode_delay (m : Mode) : (s.setMode m).delay = s.delay := rfl
@[simp] theorem State.setMode_sound (m : Mode) : (s.setMode m).sound = s.sound := rfl
@[simp] theorem State.setMode_mode (m : Mode) : (s.setMode m).mode = m := rfl
@[simp] theorem State.setMode_mem (m : Mode) : (s.setMode m).mem = s.mem := rfl
@[simp] theorem State.setMode_keys (m : Mode) : (s.setMode m).keys = s.keys := rfl
@[simp] theorem State.setMode_grid (m : Mode) : (s.setMode m).grid = s.grid := rfl
@[simp] theorem State.setMode_events (m : Mode) : (s.setMode m).events = s.events := rfl
@[simp] theorem State.setMode_config (m : Mode) : (s.setMode m).config = s.config := rfl
@[simp] theorem State.setMode_draws (m : Mode) : (s.setMode m).draws = s.draws := rfl
@[simp] theorem State.setMode_reg (m : Mode) (q : Reg) : (s.setMode m).reg q = s.reg q := rfl

@[simp] theorem State.setMem_v (m : Memory) : (s.setMem m).v = s.v := rfl
@[simp] theorem State.setMem_i (m : Memory) : (s.setMem m).i = s.i := rfl
@[simp] theorem State.setMem_pc (m : Memory) : (s.setMem m).pc = s.pc := rfl
@[simp] theorem State.setMem_stack (m : Memory) : (s.setMem m).stack = s.stack := rfl
@[simp] theorem State.setMem_delay (m : Memory) : (s.setMem m).delay = s.delay := rfl
@[simp] theorem State.setMem_sound (m : Memory) : (s.setMem m).sound = s.sound := rfl
@[simp] theorem State.setMem_mode (m : Memory) : (s.setMem m).mode = s.mode := rfl
@[simp] theorem State.setMem_mem (m : Memory) : (s.setMem m).mem = m := rfl
@[simp] theorem State.setMem_keys (m : Memory) : (s.setMem m).keys = s.keys := rfl
@[simp] theorem State.setMem_grid (m : Memory) : (s.setMem m).grid = s.grid := rfl
@[simp] theorem State.setMem_events (m : Memory) : (s.setMem m).events = s.events := rfl
@[simp] theorem State.setMem_config (m : Memory) : (s.setMem m).config = s.config := rfl
@[simp] theorem State.setMem_draws (m : Memory) : (s.setMem m).draws = s.draws := rfl
@[simp] theorem State.setMem_reg (m : Memory) (q : Reg) : (s.setMem m).reg q = s.reg q := rfl

@[simp] theorem State.setKeys_v (p : Vector Bool 16) : (s.setKeys p).v = s.v := rfl
@[simp] theorem State.setKeys_i (p : Vector Bool 16) : (s.setKeys p).i = s.i := rfl
@[simp] theorem State.setKeys_pc (p : Vector Bool 16) : (s.setKeys p).pc = s.pc := rfl
@[simp] theorem State.setKeys_stack (p : Vector Bool 16) : (s.setKeys p).stack = s.stack := rfl
@[simp] theorem State.setKeys_delay (p : Vector Bool 16) : (s.setKeys p).delay = s.delay := rfl
@[simp] theorem State.setKeys_sound (p : Vector Bool 16) : (s.setKeys p).sound = s.sound := rfl
@[simp] theorem State.setKeys_mode (p : Vector Bool 16) : (s.setKeys p).mode = s.mode := rfl
@[simp] theorem State.setKeys_mem (p : Vector Bool 16) : (s.setKeys p).mem = s.mem := rfl
@[simp] theorem State.setKeys_keys (p : Vector Bool 16) : (s.setKeys p).keys = p := rfl
@[simp] theorem State.setKeys_grid (p : Vector Bool 16) : (s.setKeys p).grid = s.grid := rfl
@[simp] theorem State.setKeys_events (p : Vector Bool 16) : (s.setKeys p).events = s.events := rfl
@[simp] theorem State.setKeys_config (p : Vector Bool 16) : (s.setKeys p).config = s.config := rfl
@[simp] theorem State.setKeys_draws (p : Vector Bool 16) : (s.setKeys p).draws = s.draws := rfl
@[simp] theorem State.setKeys_reg (p : Vector Bool 16) (q : Reg) : (s.setKeys p).reg q = s.reg q := rfl

@[simp] theorem State.setGrid_v (g : Grid) : (s.setGrid g).v = s.v := rfl
@[simp] theorem State.setGrid_i (g : Grid) : (s.setGrid g).i = s.i := rfl
@[simp] theorem State.setGrid_pc (g : Grid) : (s.setGrid g).pc = s.pc := rfl
@[simp] theorem State.setGrid_stack (g : Grid) : (s.setGrid g).stack = s.stack := rfl
@[simp] theorem State.setGrid_delay (g : Grid) : (s.setGrid g).delay = s.delay := rfl
@[simp] theorem State.setGrid_sound (g : Grid) : (s.setGrid g).sound = s.sound := rfl
@[simp] theorem State.setGrid_mode (g : Grid) : (s.setGrid g).mode = s.mode := rfl
@[simp] theorem State.setGrid_mem (g : Grid) : (s.setGrid g).mem = s.mem := rfl
@[simp] theorem State.setGrid_keys (g : Grid) : (s.setGrid g).keys = s.keys := rfl
@[simp] theorem State.setGrid_grid (g : Grid) : (s.setGrid g).grid = g := rfl
@[simp] theorem State.setGrid_events (g : Grid) : (s.setGrid g).events = s.events := rfl
@[simp] theorem State.setGrid_config (g : Grid) : (s.setGrid g).config = s.config := rfl
@[simp] theorem State.setGrid_draws (g : Grid) : (s.setGrid g).draws = s.draws := rfl
@[simp] theorem State.setGrid_reg (g : Grid) (q : Reg) : (s.setGrid g).reg q = s.reg q := rfl

@[simp] theorem State.emit_v (e : DisplayEvent) : (s.emit e).v = s.v := rfl
@[simp] theorem State.emit_i (e : DisplayEvent) : (s.emit e).i = s.i := rfl
@[simp] theorem State.emit_pc (e : DisplayEvent) : (s.emit e).pc = s.pc := rfl
@[simp] theorem State.emit_stack (e : DisplayEvent) : (s.emit e).stack = s.stack := rfl
@[simp] theorem State.emit_delay (e : DisplayEvent) : (s.emit e).delay = s.delay := rfl
@[simp] theorem State.emit_sound (e : DisplayEvent) : (s.emit e).sound = s.sound := rfl
@[simp] theorem State.emit_mode (e : DisplayEvent) : (s.emit e).mode = s.mode := rfl
@[simp] theorem State.emit_mem (e : DisplayEvent) : (s.emit e).mem = s.mem := rfl
@[simp] theorem State.emit_keys (e : DisplayEvent) : (s.emit e).keys = s.keys := rfl
@[simp] theorem State.emit_grid (e : DisplayEvent) : (s.emit e).grid = s.grid := rfl
@[simp] theorem State.emit_events (e : DisplayEvent) : (s.emit e).events = s.events ++ [e] := rfl
@[simp] theorem State.emit_config (e : DisplayEvent) : (s.emit e).config = s.config := rfl
@[simp] theorem State.emit_draws (e : DisplayEvent) : (s.emit e).draws = s.draws := rfl
@[simp] theorem State.emit_reg (e : DisplayEvent) (q : Reg) : (s.emit e).reg q = s.reg q := rfl

@[simp] theorem State.nextDraw_v : (s.nextDraw).v = s.v := rfl
@[simp] theorem State.nextDraw_i : (s.nextDraw).i = s.i := rfl
@[simp] theorem State.nextDraw_pc : (s.nextDraw).pc = s.pc := rfl
@[simp] theorem State.nextDraw_stack : (s.nextDraw).stack = s.stack := rfl
@[simp] theorem State.nextDraw_delay : (s.nextDraw).delay = s.delay := rfl
@[simp] theorem State.nextDraw_sound : (s.nextDraw).sound = s.sound := rfl
@[simp] theorem State.nextDraw_mode : (s.nextDraw).mode = s.mode := rfl
@[simp] theorem State.nextDraw_mem : (s.nextDraw).mem = s.mem := rfl
@[simp] theorem State.nextDraw_keys : (s.nextDraw).keys = s.keys := rfl
@[simp] theorem State.nextDraw_grid : (s.nextDraw).grid = s.grid := rfl
@[simp] theorem State.nextDraw_events : (s.nextDraw).events = s.events := rfl
@[simp] theorem State.nextDraw_config : (s.nextDraw).config = s.config := rfl
@[simp] theorem State.nextDraw_draws : (s.nextDraw).draws = s.draws + 1 := rfl
@[simp] theorem State.nextDraw_reg (q : Reg) : (s.nextDraw).reg q = s.reg q := rfl

@[simp] theorem State.raise_v (e : Error) : (s.raise e).v = s.v := rfl
@[simp] theorem State.raise_i (e : Error) : (s.raise e).i = s.i := rfl
@[simp] theorem State.raise_pc (e : Error) : (s.raise e).pc = s.pc := rfl
@[simp] theorem State.raise_stack (e : Error) : (s.raise e).stack = s.stack := rfl
@[simp] theorem State.raise_delay (e : Error) : (s.raise e).delay = s.delay := rfl
@[simp] theorem State.raise_sound (e : Error) : (s.raise e).sound = s.sound := rfl
@[simp] theorem State.raise_mode (e : Error) : (s.raise e).mode = .faulted e := rfl
@[simp] theorem State.raise_mem (e : Error) : (s.raise e).mem = s.mem := rfl
@[simp] theorem State.raise_keys (e : Error) : (s.raise e).keys = s.keys := rfl
@[simp] theorem State.raise_grid (e : Error) : (s.raise e).grid = s.grid := rfl
@[simp] theorem State.raise_events (e : Error) : (s.raise e).events = s.events := rfl
@[simp] theorem State.raise_config (e : Error) : (s.raise e).config = s.config := rfl
@[simp] theorem State.raise_draws (e : Error) : (s.raise e).draws = s.draws := rfl
@[simp] theorem State.raise_reg (e : Error) (q : Reg) : (s.raise e).reg q = s.reg q := rfl

@[simp] theorem State.advancePc_v : (s.advancePc).v = s.v := rfl
@[simp] theorem State.advancePc_i : (s.advancePc).i = s.i := rfl
@[simp] theorem State.advancePc_pc : (s.advancePc).pc = s.pc + 2#16 := rfl
@[simp] theorem State.advancePc_stack : (s.advancePc).stack = s.stack := rfl
@[simp] theorem State.advancePc_delay : (s.advancePc).delay = s.delay := rfl
@[simp] theorem State.advancePc_sound : (s.advancePc).sound = s.sound := rfl
@[simp] theorem State.advancePc_mode : (s.advancePc).mode = s.mode := rfl
@[simp] theorem State.advancePc_mem : (s.advancePc).mem = s.mem := rfl
@[simp] theorem State.advancePc_keys : (s.advancePc).keys = s.keys := rfl
@[simp] theorem State.advancePc_grid : (s.advancePc).grid = s.grid := rfl
@[simp] theorem State.advancePc_events : (s.advancePc).events = s.events := rfl
@[simp] theorem State.advancePc_config : (s.advancePc).config = s.config := rfl
@[simp] theorem State.advancePc_draws : (s.advancePc).draws = s.draws := rfl
@[simp] theorem State.advancePc_reg (q : Reg) : (s.advancePc).reg q = s.reg q := rfl

theorem State.setReg_reg (r q : Reg) (x : Byte) : (s.setReg r x).reg q = if q = r then x else s.reg q := by
  simp only [State.reg, State.setReg, Vector.getElem_set, Fin.val_inj]
  by_cases h : q = r
  · simp [h]
  · simp [h, Ne.symm h]

@[simp] theorem State.setReg_reg_self (r : Reg) (x : Byte) : (s.setReg r x).reg r = x := by
  simp [State.setReg_reg]

theorem State.setReg_reg_ne {r q : Reg} (x : Byte) (h : q ≠ r) : (s.setReg r x).reg q = s.reg q := by
  simp [State.setReg_reg, h]

/-- Two states with the same fields, the registers compared one by one, are the same state. -/
theorem State.ext_parts {s t : State} (hv : ∀ r, t.reg r = s.reg r) (hi : t.i = s.i) (hpc : t.pc = s.pc)
    (hst : t.stack = s.stack) (hd : t.delay = s.delay) (hs : t.sound = s.sound) (hm : t.mode = s.mode)
    (hmem : t.mem = s.mem) (hk : t.keys = s.keys) (hg : t.grid = s.grid) (he : t.events = s.events)
    (hc : t.config = s.config) (hdr : t.draws = s.draws) : t = s := by
  have hv' : t.v = s.v := Vector.ext fun j hj => hv ⟨j, hj⟩
  cases s
  cases t
  simp_all

end Sys2Proof.Machine
end

