-- ==== Sys2Proof/Laws/Display.lean ====
section
/-! SUPPORT. The laws of the display grid and of drawing: what a flip, a clear and a run of flips do to each cell, that
the size of the grid is kept, and what `State.flipAll` does to the rest of the state. -/

namespace Sys2Proof.Machine

theorem Grid.cell_clear (g : Grid) (x y : Nat) : g.clear.cell x y = false := by
  simp only [Grid.cell, Grid.clear, List.getD_eq_getElem?_getD, List.getElem?_map]
  cases g[y]? with
  | none => simp
  | some row => cases row[x]? <;> simp

/-- The cell (x, y) is one of the grid's. -/
def Grid.inside (g : Grid) (x y : Nat) : Bool := decide (x < (g.getD y []).length)

theorem Grid.cell_flip (g : Grid) (x y a b : Nat) :
    (g.flip x y).cell a b = if a = x ∧ b = y ∧ g.inside x y = true then !g.cell x y else g.cell a b := by
  simp only [Grid.cell, Grid.flip, Grid.inside, List.getD_eq_getElem?_getD, List.getElem?_modify, decide_eq_true_eq]
  by_cases hb : b = y
  · subst hb
    cases g[b]? with
    | none => simp
    | some row =>
      by_cases ha : a = x
      · subst ha
        by_cases hl : a < row.length
        · simp [hl]
        · simp [hl]
      · simp [ha, Ne.symm ha]
  · simp [hb, Ne.symm hb]

theorem Grid.inside_flip (g : Grid) (x y a b : Nat) : (g.flip x y).inside a b = g.inside a b := by
  simp only [Grid.flip, Grid.inside, List.getD_eq_getElem?_getD, List.getElem?_modify]
  by_cases hb : y = b
  · subst hb
    cases g[y]? <;> simp
  · simp [hb]

theorem Grid.hasSize_iff {w h : Nat} {g : Grid} :
    g.hasSize w h = true ↔ g.length = h ∧ ∀ row ∈ g, row.length = w := by
  simp [Grid.hasSize]

theorem Grid.inside_of_hasSize {w h : Nat} {g : Grid} (hg : g.hasSize w h = true) {x y : Nat} :
    g.inside x y = (decide (x < w) && decide (y < h)) := by
  obtain ⟨hl, hr⟩ := Grid.hasSize_iff.mp hg
  simp only [Grid.inside, List.getD_eq_getElem?_getD]
  by_cases hy : y < h
  · have hy' : y < g.length := hl ▸ hy
    simp [List.getElem?_eq_getElem hy', hr _ (List.getElem_mem hy'), hy]
  · simp [List.getElem?_eq_none (hl ▸ Nat.le_of_not_lt hy), hy]

theorem Grid.hasSize_clear {w h : Nat} {g : Grid} (hg : g.hasSize w h = true) : g.clear.hasSize w h = true := by
  rw [Grid.hasSize_iff] at hg ⊢
  refine ⟨by simpa [Grid.clear] using hg.1, ?_⟩
  simp only [Grid.clear, List.mem_map]
  rintro _ ⟨row, hr, rfl⟩
  simpa using hg.2 row hr

theorem Grid.hasSize_flip {w h : Nat} {g : Grid} (hg : g.hasSize w h = true) (x y : Nat) :
    (g.flip x y).hasSize w h = true := by
  rw [Grid.hasSize_iff] at hg ⊢
  refine ⟨by simpa [Grid.flip] using hg.1, ?_⟩
  intro row hrow
  obtain ⟨j, hj, rfl⟩ := List.mem_iff_getElem.mp hrow
  have hj' : j < g.length := by simpa [Grid.flip] using hj
  have := hg.2 _ (List.getElem_mem hj')
  simp only [Grid.flip, List.getElem_modify]
  split <;> simp [this]

theorem Grid.hasSize_ofSize (w h : Nat) (g : Grid) : (Grid.ofSize w h g).hasSize w h = true := by
  rw [Grid.hasSize_iff]
  constructor
  · simp [Grid.ofSize]
  · simp only [Grid.ofSize, List.mem_map]
    rintro _ ⟨y, _, rfl⟩
    simp

@[simp] theorem State.displayFlip_grid (x y : Nat) (s : State) : (s.displayFlip x y).grid = s.grid.flip x y := rfl
@[simp] theorem State.displayFlip_reg (x y : Nat) (s : State) (r : Reg) : (s.displayFlip x y).reg r = s.reg r := rfl
@[simp] theorem State.displayFlip_events (x y : Nat) (s : State) :
    (s.displayFlip x y).events = s.events ++ [.flip x y (s.grid.cell x y)] := rfl
@[simp] theorem State.displayClear_grid (s : State) : s.displayClear.grid = s.grid.clear := rfl
@[simp] theorem State.displayClear_events (s : State) : s.displayClear.events = s.events ++ [.clear] := rfl
@[simp] theorem State.displayClear_reg (s : State) (r : Reg) : s.displayClear.reg r = s.reg r := rfl
@[simp] theorem State.displayPresent_grid (s : State) : s.displayPresent.grid = s.grid := rfl
@[simp] theorem State.displayPresent_events (s : State) : s.displayPresent.events = s.events ++ [.present] := rfl
@[simp] theorem State.displayPresent_reg (s : State) (r : Reg) : s.displayPresent.reg r = s.reg r := rfl

/-- One flip of `State.flipAll` on a state: what it does to every field. -/
theorem State.flipAll_cons (x y : Nat) (ps : List (Nat × Nat)) (s : State) :
    State.flipAll ((x, y) :: ps) s =
      State.flipAll ps (if s.grid.cell x y then (s.displayFlip x y).setReg VF 1#8 else s.displayFlip x y) := rfl

/-- The grid after a run of flips: each pixel flipped in turn. -/
theorem State.flipAll_grid (ps : List (Nat × Nat)) (s : State) :
    (State.flipAll ps s).grid = ps.foldl (fun g p => g.flip p.1 p.2) s.grid := by
  induction ps generalizing s with
  | nil => rfl
  | cons p ps ih =>
    obtain ⟨x, y⟩ := p
    rw [State.flipAll_cons, ih]
    split <;> rfl

/-- A run of flips changes the grid, VF and the events, and nothing else. -/
theorem State.flipAll_rest (ps : List (Nat × Nat)) (s : State) :
    let t := State.flipAll ps s
    (∀ r, r ≠ VF → t.reg r = s.reg r) ∧ t.i = s.i ∧ t.pc = s.pc ∧ t.stack = s.stack ∧ t.delay = s.delay ∧
      t.sound = s.sound ∧ t.mode = s.mode ∧ t.mem = s.mem ∧ t.keys = s.keys ∧ t.config = s.config ∧
      t.draws = s.draws := by
  induction ps generalizing s with
  | nil => simp [State.flipAll]
  | cons p ps ih =>
    obtain ⟨x, y⟩ := p
    rw [State.flipAll_cons]
    split
    · have h := ih ((s.displayFlip x y).setReg VF 1#8)
      refine ⟨fun r hr => ?_, h.2⟩
      rw [h.1 r hr, State.setReg_reg_ne _ _ hr]
      rfl
    · exact ih (s.displayFlip x y)

/-- The size of the grid is kept by a run of flips. -/
theorem State.flipAll_hasSize {w h : Nat} (ps : List (Nat × Nat)) (s : State) (hg : s.grid.hasSize w h = true) :
    (State.flipAll ps s).grid.hasSize w h = true := by
  induction ps generalizing s with
  | nil => exact hg
  | cons p ps ih =>
    obtain ⟨x, y⟩ := p
    rw [State.flipAll_cons]
    apply ih
    split <;> exact Grid.hasSize_flip hg x y

/-- VF after a run of flips is 1 when one of them collided, and as before otherwise. -/
theorem State.flipAll_vf (ps : List (Nat × Nat)) (s : State) :
    (State.flipAll ps s).reg VF = s.reg VF ∨ (State.flipAll ps s).reg VF = 1#8 := by
  induction ps generalizing s with
  | nil => exact Or.inl rfl
  | cons p ps ih =>
    obtain ⟨x, y⟩ := p
    rw [State.flipAll_cons]
    split
    · rcases ih ((s.displayFlip x y).setReg VF 1#8) with h | h <;> rw [h] <;> simp
    · exact ih (s.displayFlip x y)

/-- Where no pixel is named twice, a cell of the grid changes exactly when it is one of the pixels. -/
theorem Grid.cell_foldl_flip {ps : List (Nat × Nat)} (hn : ps.Nodup) (g : Grid) (a b : Nat) :
    (ps.foldl (fun g p => g.flip p.1 p.2) g).cell a b =
      if (a, b) ∈ ps ∧ g.inside a b = true then !g.cell a b else g.cell a b := by
  induction ps generalizing g with
  | nil => simp
  | cons p ps ih =>
    obtain ⟨x, y⟩ := p
    rw [List.nodup_cons] at hn
    rw [List.foldl_cons, ih hn.2, Grid.inside_flip]
    simp only [Grid.cell_flip, List.mem_cons, Prod.mk.injEq]
    by_cases h : a = x ∧ b = y
    · obtain ⟨rfl, rfl⟩ := h
      simp [hn.1]
    · have h' : ¬(a = x ∧ b = y ∧ g.inside x y = true) := fun hc => h ⟨hc.1, hc.2.1⟩
      simp [h, h']

/-- Where no pixel is named twice, VF is set exactly when one of the pixels was on. -/
theorem State.flipAll_vf_nodup {ps : List (Nat × Nat)} (hn : ps.Nodup) (s : State) :
    (State.flipAll ps s).reg VF = if ∃ p ∈ ps, s.grid.cell p.1 p.2 = true then 1#8 else s.reg VF := by
  induction ps generalizing s with
  | nil => simp [State.flipAll]
  | cons p ps ih =>
    obtain ⟨x, y⟩ := p
    rw [List.nodup_cons] at hn
    rw [State.flipAll_cons]
    have key : ∀ q ∈ ps, (s.grid.flip x y).cell q.1 q.2 = s.grid.cell q.1 q.2 := by
      rintro ⟨a, b⟩ hq
      rw [Grid.cell_flip, if_neg]
      rintro ⟨h1, h2, _⟩
      simp only at h1 h2
      subst h1 h2
      exact hn.1 hq
    have e1 : (∃ q ∈ ps, (s.grid.flip x y).cell q.1 q.2 = true) ↔ ∃ q ∈ ps, s.grid.cell q.1 q.2 = true := by
      constructor <;> rintro ⟨q, hq, hc⟩ <;> exact ⟨q, hq, by simpa [key q hq] using hc⟩
    by_cases hc : s.grid.cell x y = true
    · simp only [hc, if_true]
      rw [ih hn.2]
      simp only [State.setReg_reg_self, ite_self]
      exact (if_pos ⟨(x, y), List.mem_cons_self, hc⟩).symm
    · simp only [hc, if_false, Bool.false_eq_true]
      rw [ih hn.2]
      simp only [State.displayFlip_grid, e1, State.displayFlip_reg, List.mem_cons, exists_eq_or_imp, hc, Bool.false_eq_true,
        false_or]

end Sys2Proof.Machine
end

