-- ==== Sys2Proof/Laws/Memory.lean ====
section
/-! SUPPORT. The laws of memory: read after write, and that every memory operation keeps the canonical form and the
range; what `CheckRange`, `readRange` and `writeRange` answer. -/

namespace Sys2Proof.Machine

theorem Memory.read_write_ne {a b : Nat} (x : Byte) (h : b ≠ a) (m : Memory) :
    Memory.read (m.write a x) b = m.read b := by
  induction m with
  | nil =>
    by_cases hx : x = 0#8
    · simp [Memory.write, hx]
    · simp [Memory.write, Memory.read, hx, Ne.symm h]
  | cons c rest ih =>
    obtain ⟨d, w⟩ := c
    unfold Memory.write
    split
    · split
      · rfl
      · simp [Memory.read, Ne.symm h]
    · split
      · rename_i hd
        subst hd
        split <;> simp [Memory.read, Ne.symm h]
      · simp only [Memory.read, ih]

/-- Below its first address a canonical memory lists nothing. -/
theorem Memory.read_of_lt {m : Memory} {lo a : Nat} (hm : m.wfFrom lo = true) (h : a < lo) : m.read a = 0#8 := by
  induction m generalizing lo with
  | nil => rfl
  | cons c rest ih =>
    obtain ⟨d, w⟩ := c
    simp only [Memory.wfFrom, Bool.and_eq_true, decide_eq_true_eq] at hm
    have hne : d ≠ a := by omega
    simp only [Memory.read, if_neg hne]
    exact ih hm.2 (by omega)

theorem Memory.read_write_same_from {lo a : Nat} (x : Byte) {m : Memory} (hm : m.wfFrom lo = true) :
    Memory.read (m.write a x) a = x := by
  induction m generalizing lo with
  | nil =>
    by_cases hx : x = 0#8
    · simp [Memory.write, Memory.read, hx]
    · simp [Memory.write, Memory.read, hx]
  | cons c rest ih =>
    obtain ⟨d, w⟩ := c
    have hm' := hm
    simp only [Memory.wfFrom, Bool.and_eq_true, decide_eq_true_eq] at hm
    unfold Memory.write
    split
    · split
      · rename_i hlt hx
        have hne : d ≠ a := by omega
        simp only [Memory.read, if_neg hne]
        rw [Memory.read_of_lt hm.2 (by omega), hx]
      · simp [Memory.read]
    · split
      · rename_i hnl hd
        split
        · rename_i hx
          rw [Memory.read_of_lt hm.2 (by omega), hx]
        · simp [Memory.read]
      · rename_i hnl hd
        have hne : d ≠ a := Ne.symm hd
        simp only [Memory.read, if_neg hne]
        exact ih hm.2

/-- A byte written to a canonical memory is read back. -/
theorem Memory.read_write_same {a : Nat} (x : Byte) {m : Memory} (hm : m.wf = true) :
    Memory.read (m.write a x) a = x := Memory.read_write_same_from x hm

theorem Memory.wfFrom_mono {m : Memory} {lo lo' : Nat} (h : lo' ≤ lo) (hm : m.wfFrom lo = true) :
    m.wfFrom lo' = true := by
  cases m with
  | nil => rfl
  | cons c rest =>
    obtain ⟨d, w⟩ := c
    simp only [Memory.wfFrom, Bool.and_eq_true, decide_eq_true_eq] at hm ⊢
    exact ⟨⟨by omega, hm.1.2⟩, hm.2⟩

theorem Memory.write_wfFrom {lo a : Nat} (x : Byte) {m : Memory} (hm : m.wfFrom lo = true) (h : lo ≤ a) :
    Memory.wfFrom lo (m.write a x) = true := by
  induction m generalizing lo with
  | nil =>
    by_cases hx : x = 0#8
    · simp [Memory.write, Memory.wfFrom, hx]
    · simp [Memory.write, Memory.wfFrom, hx, h]
  | cons c rest ih =>
    obtain ⟨d, w⟩ := c
    have hm' := hm
    simp only [Memory.wfFrom, Bool.and_eq_true, decide_eq_true_eq] at hm
    unfold Memory.write
    split
    · split
      · exact hm'
      · rename_i hx
        simp only [Memory.wfFrom, Bool.and_eq_true, decide_eq_true_eq, bne_iff_ne, ne_eq]
        exact ⟨⟨h, hx⟩, ⟨by omega, by simpa using hm.1.2⟩, hm.2⟩
    · split
      · rename_i hnl hd
        split
        · exact Memory.wfFrom_mono (by omega) hm.2
        · rename_i hx
          simp only [Memory.wfFrom, Bool.and_eq_true, decide_eq_true_eq, bne_iff_ne, ne_eq]
          exact ⟨⟨h, hx⟩, hd ▸ hm.2⟩
      · rename_i hnl hd
        simp only [Memory.wfFrom, Bool.and_eq_true, decide_eq_true_eq]
        exact ⟨hm.1, ih hm.2 (by omega)⟩

/-- A write keeps the canonical form. -/
theorem Memory.write_wf (a : Nat) (x : Byte) {m : Memory} (hm : m.wf = true) : Memory.wf (m.write a x) = true :=
  Memory.write_wfFrom x hm (Nat.zero_le a)

theorem Memory.writeList_wf (a : Nat) (xs : List Byte) {m : Memory} (hm : m.wf = true) :
    Memory.wf (m.writeList a xs) = true := by
  induction xs generalizing m a with
  | nil => exact hm
  | cons x xs ih => exact ih (a + 1) (Memory.write_wf a x hm)

/-- A write below the capacity keeps every listed address below it. -/
theorem Memory.write_inRange {cap a : Nat} (x : Byte) (h : a < cap) {m : Memory} (hm : m.inRange cap = true) :
    Memory.inRange cap (m.write a x) = true := by
  induction m with
  | nil =>
    by_cases hx : x = 0#8
    · simp [Memory.write, Memory.inRange, hx]
    · simp [Memory.write, Memory.inRange, hx, h]
  | cons c rest ih =>
    obtain ⟨d, w⟩ := c
    simp only [Memory.inRange, List.all_cons, Bool.and_eq_true, decide_eq_true_eq] at hm ih ⊢
    unfold Memory.write
    split
    · split <;> simp [hm, h]
    · split
      · split <;> simp [hm, h]
      · simp [hm, ih hm.2]

theorem Memory.writeList_inRange {cap a : Nat} {xs : List Byte} (h : xs = [] ∨ a + xs.length ≤ cap) {m : Memory}
    (hm : m.inRange cap = true) : Memory.inRange cap (m.writeList a xs) = true := by
  induction xs generalizing m a with
  | nil => exact hm
  | cons x xs ih =>
    have hl : a + (xs.length + 1) ≤ cap := by simpa using h
    exact ih (Or.inr (by omega)) (Memory.write_inRange x (by omega) hm)

/-- An address outside the bytes stored reads as before. -/
theorem Memory.read_writeList_outside {a b : Nat} {xs : List Byte} (h : b < a ∨ a + xs.length ≤ b) (m : Memory) :
    Memory.read (m.writeList a xs) b = m.read b := by
  induction xs generalizing m a with
  | nil => rfl
  | cons x xs ih =>
    simp only [List.length_cons] at h
    simp only [Memory.writeList]
    rw [ih (by omega), Memory.read_write_ne x (by omega)]

/-- A byte of a list stored in a canonical memory is read back. -/
theorem Memory.read_writeList_at {a k : Nat} {xs : List Byte} (h : k < xs.length) {m : Memory} (hm : m.wf = true) :
    Memory.read (m.writeList a xs) (a + k) = xs[k] := by
  induction xs generalizing m a k with
  | nil => simp at h
  | cons x xs ih =>
    cases k with
    | zero =>
      simp only [Memory.writeList, Nat.add_zero, List.getElem_cons_zero]
      rw [Memory.read_writeList_outside (Or.inl (Nat.lt_succ_self a)), Memory.read_write_same x hm]
    | succ k =>
      simp only [Memory.writeList, List.getElem_cons_succ]
      have := ih (a := a + 1) (k := k) (by simpa using h) (Memory.write_wf a x hm)
      rw [← this]
      congr 1
      omega

/-- `CheckRange` passes exactly when no address of the range is at or past the capacity. -/
theorem checkRange_eq_none {base n cap : Nat} : checkRange base n cap = none ↔ n = 0 ∨ base + n ≤ cap := by
  simp only [checkRange, Option.map_eq_none_iff, List.find?_eq_none, List.mem_range, decide_eq_true_eq, not_le]
  constructor
  · intro h
    by_cases hn : n = 0
    · exact Or.inl hn
    · have := h (n - 1) (by omega)
      exact Or.inr (by omega)
  · rintro (h | h) k hk <;> omega

/-- `CheckRange` reports the least address of the range at or past the capacity. -/
theorem checkRange_eq_some {base n cap a : Nat} :
    checkRange base n cap = some a ↔ ∃ k < n, a = base + k ∧ cap ≤ a ∧ ∀ j < k, base + j < cap := by
  simp only [checkRange, Option.map_eq_some_iff, List.find?_range_eq_some, decide_eq_true_eq,
    Bool.not_eq_true', decide_eq_false_iff_not, not_le, List.mem_range]
  constructor
  · rintro ⟨k, ⟨hc, hk, hl⟩, rfl⟩
    exact ⟨k, hk, rfl, hc, hl⟩
  · rintro ⟨k, hk, rfl, hc, hl⟩
    exact ⟨k, ⟨hc, hk, hl⟩, rfl⟩

/-- Everything `readRange` can answer: the bytes of a range within the capacity, or the lowest failing address. -/
theorem State.readRange_cases (base n : Nat) (s : State) :
    ((n = 0 ∨ base + n ≤ s.config.memCapacity) ∧
      s.readRange base n = .ok ((List.range n).map fun k => s.mem.read (base + k))) ∨
    (∃ a, checkRange base n s.config.memCapacity = some a ∧ s.readRange base n = .error (.outOfBounds a)) := by
  cases h : checkRange base n s.config.memCapacity with
  | none => exact Or.inl ⟨checkRange_eq_none.mp h, by simp [State.readRange, h]⟩
  | some a => exact Or.inr ⟨a, rfl, by simp [State.readRange, h]⟩

/-- Everything `writeRange` can answer: the bytes stored within the capacity, or the lowest failing address. -/
theorem State.writeRange_cases (base : Nat) (bytes : List Byte) (s : State) :
    ((bytes.length = 0 ∨ base + bytes.length ≤ s.config.memCapacity) ∧
      s.writeRange base bytes = .ok (s.setMem (s.mem.writeList base bytes))) ∨
    (∃ a, checkRange base bytes.length s.config.memCapacity = some a ∧
      s.writeRange base bytes = .error (.outOfBounds a)) := by
  cases h : checkRange base bytes.length s.config.memCapacity with
  | none => exact Or.inl ⟨checkRange_eq_none.mp h, by simp [State.writeRange, h]⟩
  | some a => exact Or.inr ⟨a, rfl, by simp [State.writeRange, h]⟩

end Sys2Proof.Machine
end

