-- ==== Sys2Proof/Laws/Frames.lean ====
section
/-! SUPPORT. The frame of each named operation, and how frames compose. -/

namespace Sys2Proof.Machine

theorem KeepsAllBut.refl (w : Part → Prop) (s : State) : KeepsAllBut w s s := by
  intro p _
  cases p <;> rfl

theorem KeepsAllBut.trans {w : Part → Prop} {s t u : State} (h : KeepsAllBut w s t) (h' : KeepsAllBut w t u) :
    KeepsAllBut w s u := by
  intro p hp
  have a := h p hp
  have b := h' p hp
  cases p <;> exact Eq.trans b a

/-- A frame may name more parts than are written. -/
theorem KeepsAllBut.mono {w w' : Part → Prop} {s t : State} (hw : ∀ p, w p → w' p) (h : KeepsAllBut w s t) :
    KeepsAllBut w' s t := fun p hp => h p fun hc => hp (hw p hc)

theorem State.setReg_keeps (r : Reg) (x : Byte) (s : State) : KeepsAllBut (· = .reg r) s (s.setReg r x) := by
  intro p hp
  cases p with
  | reg q => exact State.setReg_reg_ne s x fun h => hp (h ▸ rfl)
  | _ => rfl

theorem State.setPc_keeps (w : Word) (s : State) : KeepsAllBut (· = .pc) s (s.setPc w) := by
  intro p hp
  cases p <;> first | rfl | exact absurd rfl hp

theorem State.advancePc_keeps (s : State) : KeepsAllBut (· = .pc) s s.advancePc := State.setPc_keeps _ s

theorem State.setI_keeps (w : Word) (s : State) : KeepsAllBut (· = .index) s (s.setI w) := by
  intro p hp
  cases p <;> first | rfl | exact absurd rfl hp

theorem State.setStack_keeps (st : List Word) (s : State) : KeepsAllBut (· = .stack) s (s.setStack st) := by
  intro p hp
  cases p <;> first | rfl | exact absurd rfl hp

theorem State.setDelay_keeps (x : Byte) (s : State) : KeepsAllBut (· = .delay) s (s.setDelay x) := by
  intro p hp
  cases p <;> first | rfl | exact absurd rfl hp

theorem State.setSound_keeps (x : Byte) (s : State) : KeepsAllBut (· = .sound) s (s.setSound x) := by
  intro p hp
  cases p <;> first | rfl | exact absurd rfl hp

theorem State.setMode_keeps (m : Mode) (s : State) : KeepsAllBut (· = .mode) s (s.setMode m) := by
  intro p hp
  cases p <;> first | rfl | exact absurd rfl hp

theorem State.raise_keeps (e : Error) (s : State) : KeepsAllBut (· = .mode) s (s.raise e) :=
  State.setMode_keeps _ s

theorem State.setKeys_keeps (p : Vector Bool 16) (s : State) : KeepsAllBut (· = .keys) s (s.setKeys p) := by
  intro p hp
  cases p <;> first | rfl | exact absurd rfl hp

theorem State.consumeKey_keeps (k : Key) (s : State) : KeepsAllBut (· = .keys) s (s.consumeKey k) := by
  unfold State.consumeKey
  split
  · exact State.setKeys_keeps _ s
  · exact KeepsAllBut.refl _ s

theorem State.takeKey_keeps (x : Reg) (k : Key) (s : State) :
    KeepsAllBut (Parts [.reg x, .keys]) s (s.takeKey x k) :=
  ((State.setReg_keeps x _ s).mono (by simp [Parts])).trans ((State.consumeKey_keeps k _).mono (by simp [Parts]))

theorem State.setGrid_keeps (g : Grid) (s : State) : KeepsAllBut (· = .grid) s (s.setGrid g) := by
  intro p hp
  cases p <;> first | rfl | exact absurd rfl hp

theorem State.emit_keeps (e : DisplayEvent) (s : State) : KeepsAllBut (· = .events) s (s.emit e) := by
  intro p hp
  cases p <;> first | rfl | exact absurd rfl hp

theorem State.nextDraw_keeps (s : State) : KeepsAllBut (· = .draws) s s.nextDraw := by
  intro p hp
  cases p <;> first | rfl | exact absurd rfl hp

theorem State.setResultAndFlag_keeps (x : Reg) (a f : Byte) (s : State) :
    KeepsAllBut (Parts [.reg x, .reg VF]) s (s.setResultAndFlag x a f) :=
  ((State.setReg_keeps x a s).mono (by simp [Parts])).trans ((State.setReg_keeps VF f _).mono (by simp [Parts]))

theorem State.flipAll_keeps (ps : List (Nat × Nat)) (s : State) :
    KeepsAllBut (Parts [.reg VF, .grid, .events]) s (State.flipAll ps s) := by
  obtain ⟨h1, h2, h3, h4, h5, h6, h7, h8, h9, h10, h11⟩ := State.flipAll_rest ps s
  intro p hp
  simp only [Parts, List.mem_cons, List.not_mem_nil, or_false, not_or] at hp
  cases p with
  | reg r => exact h1 r fun h => hp.1 (h ▸ rfl)
  | byte a => exact congrArg (fun m => Memory.read m a) h8
  | grid => exact absurd rfl hp.2.1
  | events => exact absurd rfl hp.2.2
  | _ => assumption

/-- A store keeps every byte outside the bytes stored, and every other part. -/
theorem State.setMem_writeList_keeps (base : Nat) (xs : List Byte) (s : State) :
    KeepsAllBut (PartsAndBytes [] base xs.length) s (s.setMem (s.mem.writeList base xs)) := by
  intro p hp
  cases p with
  | byte a =>
    apply Memory.read_writeList_outside
    by_contra hc
    exact hp (Or.inr ⟨a - base, by omega, congrArg Part.byte (by omega)⟩)
  | _ => rfl

/-- Loading registers changes those registers only. -/
theorem State.setRegs_keeps (k : Nat) (bs : List Byte) (s : State) :
    KeepsAllBut (fun p => ∃ r : Reg, k ≤ r.val ∧ r.val < k + bs.length ∧ p = .reg r) s (State.setRegs k bs s) := by
  induction bs generalizing k s with
  | nil => exact KeepsAllBut.refl _ s
  | cons b bs ih =>
    unfold State.setRegs
    split
    · rename_i hk
      refine KeepsAllBut.trans ((State.setReg_keeps ⟨k, hk⟩ b s).mono ?_) ((ih (k + 1) _).mono ?_)
      · rintro p rfl
        exact ⟨⟨k, hk⟩, Nat.le_refl k, by simp, rfl⟩
      · rintro p ⟨r, h1, h2, rfl⟩
        exact ⟨r, by omega, by simp only [List.length_cons]; omega, rfl⟩
    · exact KeepsAllBut.refl _ s

/-- A loaded register holds its byte. -/
theorem State.setRegs_reg (k : Nat) (bs : List Byte) (s : State) (r : Reg) (h : k ≤ r.val) (h' : r.val - k < bs.length) :
    (State.setRegs k bs s).reg r = bs[r.val - k] := by
  induction bs generalizing k s with
  | nil => simp at h'
  | cons b bs ih =>
    have hk : k < 16 := Nat.lt_of_le_of_lt h r.isLt
    unfold State.setRegs
    rw [dif_pos hk]
    by_cases he : r.val = k
    · have hr : r = ⟨k, hk⟩ := Fin.ext he
      have hout := State.setRegs_keeps (k + 1) bs (s.setReg ⟨k, hk⟩ b) (.reg r)
      simp only [Part.kept] at hout
      rw [hout]
      · simp [hr]
      · rintro ⟨q, h1, _, h3⟩
        simp only [Part.reg.injEq] at h3
        subst h3
        omega
    · rw [ih (k + 1) (s.setReg ⟨k, hk⟩ b) (by omega) (by simp only [List.length_cons] at h'; omega)]
      have hs : r.val - k = r.val - (k + 1) + 1 := by omega
      simp only [hs, List.getElem_cons_succ]

/-- The registers stored by `Fx55`, by number. -/
theorem State.regsUpTo_getElem (x : Reg) (s : State) (r : Reg) (h : r.val < (s.regsUpTo x).length) :
    (s.regsUpTo x)[r.val] = s.reg r := by
  simp [State.regsUpTo, State.reg]

@[simp] theorem State.regsUpTo_length (x : Reg) (s : State) : (s.regsUpTo x).length = x.val + 1 := by
  simp only [State.regsUpTo, List.length_take, Vector.length_toList]
  omega

/-- Loading registers leaves every other field the same, memory as a list included. -/
theorem State.setRegs_rest (k : Nat) (bs : List Byte) (s : State) :
    let t := State.setRegs k bs s
    t.i = s.i ∧ t.pc = s.pc ∧ t.stack = s.stack ∧ t.delay = s.delay ∧ t.sound = s.sound ∧ t.mode = s.mode ∧
      t.mem = s.mem ∧ t.keys = s.keys ∧ t.grid = s.grid ∧ t.events = s.events ∧ t.config = s.config ∧
      t.draws = s.draws := by
  induction bs generalizing k s with
  | nil => simp [State.setRegs]
  | cons b bs ih =>
    unfold State.setRegs
    split
    · exact ih _ _
    · simp

end Sys2Proof.Machine
end

