-- ==== Sys2Proof/Laws/Exec.lean ====
section
/-! SUPPORT. What each instruction answers, once, in terms of the named operations; what `push`, `pop` and the lowest
pressed key answer; what an instruction does to the mode. -/

namespace Sys2Proof.Machine

/-- Everything `push` can answer (10_state.md R32). -/
theorem State.push_cases (w : Word) (s : State) :
    (s.stack.length < s.config.stackDepth ∧ s.push w = .ok (s.setStack (w :: s.stack))) ∨
    (s.config.stackDepth ≤ s.stack.length ∧ s.push w = .error .stackOverflow) := by
  by_cases h : s.config.stackDepth ≤ s.stack.length
  · exact Or.inr ⟨h, if_pos h⟩
  · exact Or.inl ⟨Nat.lt_of_not_le h, if_neg h⟩

/-- Everything `pop` can answer (10_state.md R32). -/
theorem State.pop_cases (s : State) :
    (∃ w rest, s.stack = w :: rest ∧ s.pop = .ok (w, s.setStack rest)) ∨
    (s.stack = [] ∧ s.pop = .error .stackUnderflow) := by
  cases h : s.stack with
  | nil => exact Or.inr ⟨rfl, by simp [State.pop, h]⟩
  | cons w rest => exact Or.inl ⟨w, rest, rfl, by simp [State.pop, h]⟩

/-- No key is found exactly when none is pressed. -/
theorem State.lowestKey_eq_none {s : State} : s.lowestKey = none ↔ ∀ k, s.isPressed k = false := by
  simp [State.lowestKey]

/-- The key found is pressed, and no lower one is. -/
theorem State.lowestKey_eq_some {s : State} {k : Key} :
    s.lowestKey = some k ↔ s.isPressed k = true ∧ ∀ j, j < k → s.isPressed j = false := by
  simp only [State.lowestKey, List.find?_eq_some_iff_getElem]
  constructor
  · rintro ⟨hk, n, hn, hget, hlow⟩
    refine ⟨by simpa using hk, fun j hj => ?_⟩
    have hkn : n = k.val := by
      have := congrArg Fin.val hget
      simpa using this
    subst hkn
    have := hlow j.val hj
    simpa using this
  · rintro ⟨hk, hlow⟩
    refine ⟨by simpa using hk, k.val, by simp, by simp, fun j hj => ?_⟩
    have hj' : j < 16 := by omega
    have := hlow ⟨j, hj'⟩ hj
    simpa using this

/-- A number below 16 names the key of that number; any other names none. -/
theorem State.keyNumberPressed_eq_true {b : Byte} {s : State} :
    s.keyNumberPressed b = true ↔ ∃ k : Key, b.toNat = k.val ∧ s.isPressed k = true := by
  unfold State.keyNumberPressed
  split
  · rename_i h
    constructor
    · intro hp
      exact ⟨⟨b.toNat, h⟩, rfl, hp⟩
    · rintro ⟨k, hk, hp⟩
      have : (⟨b.toNat, h⟩ : Key) = k := Fin.ext hk
      rw [this]
      exact hp
  · rename_i h
    constructor
    · intro hc
      exact absurd hc (by simp)
    · rintro ⟨k, hk, _⟩
      exact absurd k.isLt (by omega)

variable (s : State)

theorem exec_cls : exec (.cls) s = .next s.displayClear.advancePc := rfl

theorem exec_jp (nnn : Addr12) : exec (.jp nnn) s = .next (s.setPc (zextAddr nnn)) := rfl

theorem exec_jpV0 (nnn : Addr12) : exec (.jpV0 nnn) s = .next (s.setPc (s.jumpV0Target nnn)) := rfl

theorem exec_ldByte (x : Reg) (nn : Byte) : exec (.ldByte x nn) s = .next (s.setReg x nn).advancePc := rfl

theorem exec_addByte (x : Reg) (nn : Byte) : exec (.addByte x nn) s = .next (s.setReg x (s.reg x + nn)).advancePc := rfl

theorem exec_ldReg (x y : Reg) : exec (.ldReg x y) s = .next (s.setReg x (s.reg y)).advancePc := rfl

theorem exec_orReg (x y : Reg) : exec (.orReg x y) s = .next (s.setReg x (s.reg x ||| s.reg y)).advancePc := rfl

theorem exec_andReg (x y : Reg) : exec (.andReg x y) s = .next (s.setReg x (s.reg x &&& s.reg y)).advancePc := rfl

theorem exec_xorReg (x y : Reg) : exec (.xorReg x y) s = .next (s.setReg x (s.reg x ^^^ s.reg y)).advancePc := rfl

theorem exec_addReg (x y : Reg) : exec (.addReg x y) s = .next (s.setResultAndFlag x (s.reg x + s.reg y) (carryFlag (s.reg x) (s.reg y))).advancePc := rfl

theorem exec_subReg (x y : Reg) : exec (.subReg x y) s = .next (s.setResultAndFlag x (s.reg x - s.reg y) (noBorrowFlag (s.reg x) (s.reg y))).advancePc := rfl

theorem exec_shr (x y : Reg) : exec (.shr x y) s = .next (s.setResultAndFlag x (s.shiftSource x y >>> 1) (shiftedOutRight (s.shiftSource x y))).advancePc := rfl

theorem exec_subn (x y : Reg) : exec (.subn x y) s = .next (s.setResultAndFlag x (s.reg y - s.reg x) (noBorrowFlag (s.reg y) (s.reg x))).advancePc := rfl

theorem exec_shl (x y : Reg) : exec (.shl x y) s = .next (s.setResultAndFlag x (s.shiftSource x y <<< 1) (shiftedOutLeft (s.shiftSource x y))).advancePc := rfl

theorem exec_rnd (x : Reg) (nn : Byte) : exec (.rnd x nn) s = .next (s.nextDraw.setReg x (s.drawnByte &&& nn)).advancePc := rfl

theorem exec_ldI (nnn : Addr12) : exec (.ldI nnn) s = .next (s.setI (zextAddr nnn)).advancePc := rfl

theorem exec_addI (x : Reg) : exec (.addI x) s = .next (s.setI (s.indexSum x)).advancePc := rfl

theorem exec_ldF (x : Reg) : exec (.ldF x) s = .next (s.setI (s.glyphAddress x)).advancePc := rfl

theorem exec_ldVxDt (x : Reg) : exec (.ldVxDt x) s = .next (s.setReg x s.delay).advancePc := rfl

theorem exec_ldDtVx (x : Reg) : exec (.ldDtVx x) s = .next (s.setDelay (s.reg x)).advancePc := rfl

theorem exec_ldStVx (x : Reg) : exec (.ldStVx x) s = .next (s.setSound (s.reg x)).advancePc := rfl

theorem exec_seByte (x : Reg) (nn : Byte) : exec (.seByte x nn) s = .next (s.setPc (if (s.reg x == nn) then s.pc + 4#16 else s.pc + 2#16)) := by
  simp only [exec, execSeByte, State.skipIf]
  cases h : (s.reg x == nn) <;> rfl

theorem exec_sneByte (x : Reg) (nn : Byte) : exec (.sneByte x nn) s = .next (s.setPc (if (s.reg x != nn) then s.pc + 4#16 else s.pc + 2#16)) := by
  simp only [exec, execSneByte, State.skipIf]
  cases h : (s.reg x != nn) <;> rfl

theorem exec_seReg (x y : Reg) : exec (.seReg x y) s = .next (s.setPc (if (s.reg x == s.reg y) then s.pc + 4#16 else s.pc + 2#16)) := by
  simp only [exec, execSeReg, State.skipIf]
  cases h : (s.reg x == s.reg y) <;> rfl

theorem exec_sneReg (x y : Reg) : exec (.sneReg x y) s = .next (s.setPc (if (s.reg x != s.reg y) then s.pc + 4#16 else s.pc + 2#16)) := by
  simp only [exec, execSneReg, State.skipIf]
  cases h : (s.reg x != s.reg y) <;> rfl

theorem exec_skp (x : Reg) : exec (.skp x) s = .next (s.setPc (if s.keyNumberPressed (s.reg x) then s.pc + 4#16 else s.pc + 2#16)) := by
  simp only [exec, execSkp, State.skipIf]
  cases h : s.keyNumberPressed (s.reg x) <;> rfl

theorem exec_sknp (x : Reg) : exec (.sknp x) s = .next (s.setPc (if (!s.keyNumberPressed (s.reg x)) then s.pc + 4#16 else s.pc + 2#16)) := by
  simp only [exec, execSknp, State.skipIf]
  cases h : (!s.keyNumberPressed (s.reg x)) <;> rfl

/-- `00EE`: the return, or the underflow. -/
theorem exec_ret :
    (∃ w rest, s.stack = w :: rest ∧ exec .ret s = .next ((s.setStack rest).setPc w)) ∨
    (s.stack = [] ∧ exec .ret s = .next (s.raise .stackUnderflow)) := by
  rcases s.pop_cases with ⟨w, rest, h, hp⟩ | ⟨h, hp⟩
  · exact Or.inl ⟨w, rest, h, by simp [exec, execRet, hp, finish]⟩
  · exact Or.inr ⟨h, by simp [exec, execRet, hp, finish]⟩

/-- `2nnn`: the call, or the overflow. -/
theorem exec_call (nnn : Addr12) :
    (s.stack.length < s.config.stackDepth ∧
      exec (.call nnn) s = .next ((s.setStack ((s.pc + 2#16) :: s.stack)).setPc (zextAddr nnn))) ∨
    (s.config.stackDepth ≤ s.stack.length ∧ exec (.call nnn) s = .next (s.raise .stackOverflow)) := by
  rcases s.push_cases s.returnAddress with ⟨h, hp⟩ | ⟨h, hp⟩
  · exact Or.inl ⟨h, by simp only [exec, execCall, hp]; rfl⟩
  · exact Or.inr ⟨h, by simp [exec, execCall, hp, finish]⟩

/-- `Dxyn`: the sprite, or the lowest address past the capacity. -/
theorem exec_drw (x y : Reg) (n : Nibble) :
    ((n.toNat = 0 ∨ s.i.toNat + n.toNat ≤ s.config.memCapacity) ∧
      exec (.drw x y n) s =
        .next (s.drawSprite x y ((List.range n.toNat).map fun k => s.mem.read (s.i.toNat + k))).advancePc) ∨
    (∃ a, checkRange s.i.toNat n.toNat s.config.memCapacity = some a ∧
      exec (.drw x y n) s = .next (s.raise (.outOfBounds a))) := by
  rcases s.readRange_cases (s.indexAddr 0) n.toNat with ⟨h, hp⟩ | ⟨a, h, hp⟩
  · exact Or.inl ⟨h, by simp only [exec, execDrw, hp]; rfl⟩
  · exact Or.inr ⟨a, h, by simp only [exec, execDrw, hp]; rfl⟩

/-- `Fx33`: the digits stored, or the lowest address past the capacity. -/
theorem exec_ldB (x : Reg) :
    (s.i.toNat + 3 ≤ s.config.memCapacity ∧
      exec (.ldB x) s = .next (s.setMem (s.mem.writeList s.i.toNat (decimalDigits (s.reg x)))).advancePc) ∨
    (∃ a, checkRange s.i.toNat 3 s.config.memCapacity = some a ∧
      exec (.ldB x) s = .next (s.raise (.outOfBounds a))) := by
  rcases s.writeRange_cases (s.indexAddr 0) (decimalDigits (s.reg x)) with ⟨h, hp⟩ | ⟨a, h, hp⟩
  · refine Or.inl ⟨?_, by simp only [exec, execLdB, hp]; rfl⟩
    simpa [decimalDigits, State.indexAddr] using h
  · exact Or.inr ⟨a, h, by simp only [exec, execLdB, hp]; rfl⟩

/-- `Fx55`: the registers stored, or the lowest address past the capacity. -/
theorem exec_stRegs (x : Reg) :
    (s.i.toNat + (x.val + 1) ≤ s.config.memCapacity ∧
      exec (.stRegs x) s = .next (s.setMem (s.mem.writeList s.i.toNat (s.regsUpTo x))).advancePc) ∨
    (∃ a, checkRange s.i.toNat (x.val + 1) s.config.memCapacity = some a ∧
      exec (.stRegs x) s = .next (s.raise (.outOfBounds a))) := by
  rcases s.writeRange_cases (s.indexAddr 0) (s.regsUpTo x) with ⟨h, hp⟩ | ⟨a, h, hp⟩
  · refine Or.inl ⟨?_, by simp only [exec, execStRegs, hp]; rfl⟩
    simpa [State.indexAddr] using h
  · refine Or.inr ⟨a, ?_, by simp only [exec, execStRegs, hp]; rfl⟩
    simpa [State.indexAddr] using h

/-- `Fx65`: the registers loaded, or the lowest address past the capacity. -/
theorem exec_ldRegs (x : Reg) :
    (s.i.toNat + (x.val + 1) ≤ s.config.memCapacity ∧
      exec (.ldRegs x) s =
        .next (s.setRegs 0 ((List.range (x.val + 1)).map fun k => s.mem.read (s.i.toNat + k))).advancePc) ∨
    (∃ a, checkRange s.i.toNat (x.val + 1) s.config.memCapacity = some a ∧
      exec (.ldRegs x) s = .next (s.raise (.outOfBounds a))) := by
  rcases s.readRange_cases (s.indexAddr 0) (x.val + 1) with ⟨h, hp⟩ | ⟨a, h, hp⟩
  · refine Or.inl ⟨?_, by simp only [exec, execLdRegs, hp]; rfl⟩
    simpa [State.indexAddr] using h
  · exact Or.inr ⟨a, h, by simp only [exec, execLdRegs, hp]; rfl⟩

/-- `Fx0A`: suspended while no key is pressed, else the lowest key taken. -/
theorem exec_ldVxK (x : Reg) :
    (s.lowestKey = none ∧ exec (.ldVxK x) s = .next (s.setMode (.awaitingKey x))) ∨
    (∃ k, s.lowestKey = some k ∧ exec (.ldVxK x) s = .next (s.takeKey x k).advancePc) := by
  cases h : s.lowestKey with
  | none => exact Or.inl ⟨rfl, by simp [exec, execLdVxK, h, finish]⟩
  | some k => exact Or.inr ⟨k, rfl, by simp [exec, execLdVxK, h, finish]⟩

/-- The mode after an instruction: an error raised with nothing else changed, a key wait begun, or the mode kept. -/
theorem exec_mode_cases {i : Instr} {s t : State} (h : exec i s = .next t) :
    (∃ e, t = s.raise e ∧ ∀ offset length, e ≠ .capacityExceeded offset length) ∨
    (∃ x, i = .ldVxK x ∧ s.lowestKey = none ∧ t = s.setMode (.awaitingKey x)) ∨ t.mode = s.mode := by
  cases i with
  | ret =>
    rcases exec_ret s with ⟨w, r, _, h'⟩ | ⟨_, h'⟩ <;> rw [h'] at h <;> cases h
    · exact Or.inr (Or.inr rfl)
    · exact Or.inl ⟨_, rfl, by simp⟩
  | call n =>
    rcases exec_call s n with ⟨_, h'⟩ | ⟨_, h'⟩ <;> rw [h'] at h <;> cases h
    · exact Or.inr (Or.inr rfl)
    · exact Or.inl ⟨_, rfl, by simp⟩
  | drw x y n =>
    rcases exec_drw s x y n with ⟨_, h'⟩ | ⟨_, _, h'⟩ <;> rw [h'] at h <;> cases h
    · exact Or.inr (Or.inr (State.flipAll_rest _ _).2.2.2.2.2.2.1)
    · exact Or.inl ⟨_, rfl, by simp⟩
  | ldB x =>
    rcases exec_ldB s x with ⟨_, h'⟩ | ⟨_, _, h'⟩ <;> rw [h'] at h <;> cases h
    · exact Or.inr (Or.inr rfl)
    · exact Or.inl ⟨_, rfl, by simp⟩
  | stRegs x =>
    rcases exec_stRegs s x with ⟨_, h'⟩ | ⟨_, _, h'⟩ <;> rw [h'] at h <;> cases h
    · exact Or.inr (Or.inr rfl)
    · exact Or.inl ⟨_, rfl, by simp⟩
  | ldRegs x =>
    rcases exec_ldRegs s x with ⟨_, h'⟩ | ⟨_, _, h'⟩ <;> rw [h'] at h <;> cases h
    · exact Or.inr (Or.inr (State.setRegs_keeps 0 _ s .mode (by simp)))
    · exact Or.inl ⟨_, rfl, by simp⟩
  | ldVxK x =>
    rcases exec_ldVxK s x with ⟨hk, h'⟩ | ⟨k, _, h'⟩ <;> rw [h'] at h <;> cases h
    · exact Or.inr (Or.inl ⟨x, rfl, hk, rfl⟩)
    · exact Or.inr (Or.inr (State.takeKey_keeps x k s .mode (by simp [Parts])))
  | seByte => rw [exec_seByte] at h; cases h; exact Or.inr (Or.inr rfl)
  | sneByte => rw [exec_sneByte] at h; cases h; exact Or.inr (Or.inr rfl)
  | seReg => rw [exec_seReg] at h; cases h; exact Or.inr (Or.inr rfl)
  | sneReg => rw [exec_sneReg] at h; cases h; exact Or.inr (Or.inr rfl)
  | skp => rw [exec_skp] at h; cases h; exact Or.inr (Or.inr rfl)
  | sknp => rw [exec_sknp] at h; cases h; exact Or.inr (Or.inr rfl)
  | _ => cases h; exact Or.inr (Or.inr rfl)

end Sys2Proof.Machine
end

