-- ==== Sys2Proof/Laws/PerInstr.lean ====
section
/-! SUPPORT. The family `MatchesRow`, one lemma per constructor of `Instr`: the encoding of an instruction, whatever its
operands, matches that instruction's row of the opcode table (30_encoding.md R73, R78). -/

namespace Sys2Proof.Laws.MatchesRow

/-- The word of the instruction matches the instruction's own row of 30_encoding.md R73. -/
def Statement (i : Instr) : Prop := i.row.covers (encode i) = true

/-- A word of the shape `annn` matches a row with its first nibble literal. -/
theorem covers_wordNNN (a : Nibble) (nnn : Addr12) :
    OpcodeRow.covers ⟨a.setWidth 16 <<< 12, 0xF000#16⟩ (wordNNN a nnn) = true := by
  rw [OpcodeRow.covers, beq_iff_eq]
  ext i hi
  simp only [wordNNN]
  interval_cases i <;> simp

/-- A word of the shape `axnn` matches a row with its first nibble literal. -/
theorem covers_wordXNN (a : Nibble) (x : Reg) (nn : Byte) :
    OpcodeRow.covers ⟨a.setWidth 16 <<< 12, 0xF000#16⟩ (wordXNN a x nn) = true := by
  rw [OpcodeRow.covers, beq_iff_eq]
  ext i hi
  simp only [wordXNN]
  interval_cases i <;> simp

/-- A word of the shape `axnn` matches a row with its first nibble and its low byte literal. -/
theorem covers_wordXNN_low (a : Nibble) (x : Reg) (nn : Byte) :
    OpcodeRow.covers ⟨(a.setWidth 16 <<< 12) ||| nn.setWidth 16, 0xF0FF#16⟩ (wordXNN a x nn) = true := by
  rw [OpcodeRow.covers, beq_iff_eq]
  ext i hi
  simp only [wordXNN]
  interval_cases i <;> simp

/-- A word of the shape `axyd` matches a row with its first nibble literal. -/
theorem covers_wordXYN (a : Nibble) (x y : Reg) (d : Nibble) :
    OpcodeRow.covers ⟨a.setWidth 16 <<< 12, 0xF000#16⟩ (wordXYN a x y d) = true := by
  rw [OpcodeRow.covers, beq_iff_eq]
  ext i hi
  simp only [wordXYN]
  interval_cases i <;> simp

/-- A word of the shape `axyd` matches a row with its first and its last nibble literal. -/
theorem covers_wordXYN_low (a : Nibble) (x y : Reg) (d : Nibble) :
    OpcodeRow.covers ⟨(a.setWidth 16 <<< 12) ||| d.setWidth 16, 0xF00F#16⟩ (wordXYN a x y d) = true := by
  rw [OpcodeRow.covers, beq_iff_eq]
  ext i hi
  simp only [wordXYN]
  interval_cases i <;> simp

theorem cls : Statement (.cls) := by
  unfold Statement
  decide

theorem ret : Statement (.ret) := by
  unfold Statement
  decide

theorem jp (nnn : Addr12) : Statement (.jp nnn) := covers_wordNNN 0x1 nnn

theorem call (nnn : Addr12) : Statement (.call nnn) := covers_wordNNN 0x2 nnn

theorem seByte (x : Reg) (nn : Byte) : Statement (.seByte x nn) := covers_wordXNN 0x3 x nn

theorem sneByte (x : Reg) (nn : Byte) : Statement (.sneByte x nn) := covers_wordXNN 0x4 x nn

theorem seReg (x y : Reg) : Statement (.seReg x y) := covers_wordXYN_low 0x5 x y 0x0

theorem ldByte (x : Reg) (nn : Byte) : Statement (.ldByte x nn) := covers_wordXNN 0x6 x nn

theorem addByte (x : Reg) (nn : Byte) : Statement (.addByte x nn) := covers_wordXNN 0x7 x nn

theorem ldReg (x y : Reg) : Statement (.ldReg x y) := covers_wordXYN_low 0x8 x y 0x0

theorem orReg (x y : Reg) : Statement (.orReg x y) := covers_wordXYN_low 0x8 x y 0x1

theorem andReg (x y : Reg) : Statement (.andReg x y) := covers_wordXYN_low 0x8 x y 0x2

theorem xorReg (x y : Reg) : Statement (.xorReg x y) := covers_wordXYN_low 0x8 x y 0x3

theorem addReg (x y : Reg) : Statement (.addReg x y) := covers_wordXYN_low 0x8 x y 0x4

theorem subReg (x y : Reg) : Statement (.subReg x y) := covers_wordXYN_low 0x8 x y 0x5

theorem shr (x y : Reg) : Statement (.shr x y) := covers_wordXYN_low 0x8 x y 0x6

theorem subn (x y : Reg) : Statement (.subn x y) := covers_wordXYN_low 0x8 x y 0x7

theorem shl (x y : Reg) : Statement (.shl x y) := covers_wordXYN_low 0x8 x y 0xE

theorem sneReg (x y : Reg) : Statement (.sneReg x y) := covers_wordXYN_low 0x9 x y 0x0

theorem ldI (nnn : Addr12) : Statement (.ldI nnn) := covers_wordNNN 0xA nnn

theorem jpV0 (nnn : Addr12) : Statement (.jpV0 nnn) := covers_wordNNN 0xB nnn

theorem rnd (x : Reg) (nn : Byte) : Statement (.rnd x nn) := covers_wordXNN 0xC x nn

theorem drw (x y : Reg) (n : Nibble) : Statement (.drw x y n) := covers_wordXYN 0xD x y n

theorem skp (x : Reg) : Statement (.skp x) := covers_wordXNN_low 0xE x 0x9E

theorem sknp (x : Reg) : Statement (.sknp x) := covers_wordXNN_low 0xE x 0xA1

theorem ldVxDt (x : Reg) : Statement (.ldVxDt x) := covers_wordXNN_low 0xF x 0x07

theorem ldVxK (x : Reg) : Statement (.ldVxK x) := covers_wordXNN_low 0xF x 0x0A

theorem ldDtVx (x : Reg) : Statement (.ldDtVx x) := covers_wordXNN_low 0xF x 0x15

theorem ldStVx (x : Reg) : Statement (.ldStVx x) := covers_wordXNN_low 0xF x 0x18

theorem addI (x : Reg) : Statement (.addI x) := covers_wordXNN_low 0xF x 0x1E

theorem ldF (x : Reg) : Statement (.ldF x) := covers_wordXNN_low 0xF x 0x29

theorem ldB (x : Reg) : Statement (.ldB x) := covers_wordXNN_low 0xF x 0x33

theorem stRegs (x : Reg) : Statement (.stRegs x) := covers_wordXNN_low 0xF x 0x55

theorem ldRegs (x : Reg) : Statement (.ldRegs x) := covers_wordXNN_low 0xF x 0x65

end Sys2Proof.Laws.MatchesRow
end

