-- ==== Sys2Proof/Laws/Step.lean ====
section
/-! SUPPORT. Everything a fetch and a `step()` can do: one case each (10_state.md R37 to R39). -/

namespace Sys2Proof.Machine

/-- Everything the fetch can answer (20_memory.md R55, 60_exceptions.md R172). -/
theorem State.fetch_cases (s : State) :
    (s.pc.toNat + 1 < s.config.memCapacity ∧
      s.fetch = .ok (composeWord (s.mem.read s.pc.toNat) (s.mem.read (s.pc.toNat + 1)))) ∨
    (s.pc.toNat < s.config.memCapacity ∧ s.config.memCapacity ≤ s.pc.toNat + 1 ∧
      s.fetch = .error (.outOfBounds (s.pc.toNat + 1))) ∨
    (s.config.memCapacity ≤ s.pc.toNat ∧ s.fetch = .error (.outOfBounds s.pc.toNat)) := by
  by_cases h0 : s.config.memCapacity ≤ s.pc.toNat
  · exact Or.inr (Or.inr ⟨h0, by simp [State.fetch, State.memRead, h0]⟩)
  · by_cases h1 : s.config.memCapacity ≤ s.pc.toNat + 1
    · exact Or.inr (Or.inl ⟨Nat.lt_of_not_le h0, h1, by simp [State.fetch, State.memRead, h0, h1]⟩)
    · exact Or.inl ⟨Nat.lt_of_not_le h1, by simp [State.fetch, State.memRead, h0, h1]⟩

/-- What a `step()` from `s` can do, with its next state. -/
inductive StepCase (s : State) : State → Prop where
  /-- The fetch fails. -/
  | fetchFails (e : Error) (hm : s.mode = .running) (hf : s.fetch = .error e) : StepCase s (s.raise e)
  /-- The word is unknown. -/
  | unknown (op : Word) (e : DecodeError) (hm : s.mode = .running) (hf : s.fetch = .ok op)
      (hd : decode op = .error e) : StepCase s (s.raise (s.unknownOpcode op))
  /-- The decoded instruction runs. -/
  | runs (op : Word) (i : Instr) (t : State) (hm : s.mode = .running) (hf : s.fetch = .ok op)
      (hd : decode op = .ok i) (he : exec i s = .next t) : StepCase s t
  /-- Waiting, no key pressed. -/
  | waits (x : Reg) (hm : s.mode = .awaitingKey x) (hk : s.lowestKey = none) : StepCase s s
  /-- The wait ends. -/
  | waitEnds (x : Reg) (k : Key) (hm : s.mode = .awaitingKey x) (hk : s.lowestKey = some k) :
      StepCase s ((s.takeKey x k).advancePc.setMode .running)
  /-- Faulted. -/
  | faulted (e : Error) (hm : s.mode = .faulted e) : StepCase s s

/-- Everything a step that answers a next state can do. -/
theorem step_cases {s t : State} (h : step s = .next t) : StepCase s t := by
  unfold step at h
  split at h
  · rename_i hm
    unfold stepRunning at h
    split at h
    · rename_i e hf
      cases h
      exact .fetchFails e hm hf
    · rename_i op hf
      unfold runWord at h
      split at h
      · rename_i e hd
        cases h
        exact .unknown op e hm hf hd
      · rename_i i hd
        exact .runs op i t hm hf hd h
  · rename_i x hm
    unfold stepAwaiting at h
    split at h
    · rename_i hk
      cases h
      exact .waits x hm hk
    · rename_i k hk
      cases h
      exact .waitEnds x k hm hk
  · rename_i e hm
    cases h
    exact .faulted e hm

/-- A fetch that answers a word found both its bytes within the capacity. -/
theorem State.fetch_ok {s : State} {op : Word} (h : s.fetch = .ok op) :
    s.pc.toNat + 1 < s.config.memCapacity ∧
      op = composeWord (s.mem.read s.pc.toNat) (s.mem.read (s.pc.toNat + 1)) := by
  rcases s.fetch_cases with ⟨hp, h'⟩ | ⟨_, _, h'⟩ | ⟨_, h'⟩ <;> rw [h'] at h <;> cases h
  exact ⟨hp, rfl⟩

end Sys2Proof.Machine
end

