-- ==== Sys2Proof/Tests/Slice0.lean ====
section
/-! SUPPORT. The model's own tests: decoding of a word written out from each pattern of 30_encoding.md R73, ill-formed terms
for each check, single steps whose results are taken from 95_test_vectors.md, and for every statement with hypotheses a
state and operands that meet them. -/

namespace Sys2Proof.Tests

open Machine

/-! ## Decoding: one word per constructor, from the patterns of 30_encoding.md R73 -/

theorem test_decode_cls : decode 0x00E0 = .ok .cls := by decide

theorem test_decode_ret : decode 0x00EE = .ok .ret := by decide

theorem test_decode_jp : decode 0x1ABC = .ok (.jp 0xABC) := by decide

theorem test_decode_call : decode 0x2FFF = .ok (.call 0xFFF) := by decide

theorem test_decode_seByte : decode 0x3342 = .ok (.seByte 3 0x42) := by decide

theorem test_decode_sneByte : decode 0x4343 = .ok (.sneByte 3 0x43) := by decide

theorem test_decode_seReg : decode 0x5120 = .ok (.seReg 1 2) := by decide

theorem test_decode_ldByte : decode 0x6A5C = .ok (.ldByte 10 0x5C) := by decide

theorem test_decode_addByte : decode 0x7F01 = .ok (.addByte 15 0x01) := by decide

theorem test_decode_ldReg : decode 0x85F0 = .ok (.ldReg 5 15) := by decide

theorem test_decode_orReg : decode 0x8AB1 = .ok (.orReg 10 11) := by decide

theorem test_decode_andReg : decode 0x8AB2 = .ok (.andReg 10 11) := by decide

theorem test_decode_xorReg : decode 0x8AB3 = .ok (.xorReg 10 11) := by decide

theorem test_decode_addReg : decode 0x8F14 = .ok (.addReg 15 1) := by decide

theorem test_decode_subReg : decode 0x80F5 = .ok (.subReg 0 15) := by decide

theorem test_decode_shr : decode 0x80F6 = .ok (.shr 0 15) := by decide

theorem test_decode_subn : decode 0x8F17 = .ok (.subn 15 1) := by decide

theorem test_decode_shl : decode 0x8F1E = .ok (.shl 15 1) := by decide

theorem test_decode_sneReg : decode 0x9120 = .ok (.sneReg 1 2) := by decide

theorem test_decode_ldI : decode 0xA123 = .ok (.ldI 0x123) := by decide

theorem test_decode_jpV0 : decode 0xB5FF = .ok (.jpV0 0x5FF) := by decide

theorem test_decode_rnd : decode 0xC10F = .ok (.rnd 1 0x0F) := by decide

theorem test_decode_drw : decode 0xD345 = .ok (.drw 3 4 5) := by decide

theorem test_decode_skp : decode 0xE19E = .ok (.skp 1) := by decide

theorem test_decode_sknp : decode 0xE1A1 = .ok (.sknp 1) := by decide

theorem test_decode_ldVxDt : decode 0xF507 = .ok (.ldVxDt 5) := by decide

theorem test_decode_ldVxK : decode 0xF20A = .ok (.ldVxK 2) := by decide

theorem test_decode_ldDtVx : decode 0xF115 = .ok (.ldDtVx 1) := by decide

theorem test_decode_ldStVx : decode 0xF118 = .ok (.ldStVx 1) := by decide

theorem test_decode_addI : decode 0xF41E = .ok (.addI 4) := by decide

theorem test_decode_ldF : decode 0xF029 = .ok (.ldF 0) := by decide

theorem test_decode_ldB : decode 0xF033 = .ok (.ldB 0) := by decide

theorem test_decode_stRegs : decode 0xF355 = .ok (.stRegs 3) := by decide

theorem test_decode_ldRegs : decode 0xF265 = .ok (.ldRegs 2) := by decide

/-- A word is laid out high byte first and takes two bytes (20_memory.md R55, 30_encoding.md R70). -/
theorem test_decode_bytes : decodeBytes [0xD3, 0x45, 0x12] = .ok (.drw 3 4 5, [0x12]) := by decide

theorem test_decode_truncated : decodeBytes [0xD3] = .error (.truncated 1) := by decide

theorem test_encode_drw : encodeBytes (.drw 3 4 5) = [0xD3, 0x45] := by decide

theorem test_decode_table_word : decodeTableWord 16 0x8374 = some (.addReg 3 7) := by decide

/-! ## Ill-formed terms -/

/-- A register number, a byte, an address and a count one past their fields (30_encoding.md R71, R72). -/
theorem test_illformed_fields :
    fitsField 16 4 = false ∧ fitsField 256 8 = false ∧ fitsField 4096 12 = false ∧ fitsField 15 4 = true := by decide

/-- V-DEC-1 to V-DEC-6: words with one literal nibble wrong. -/
theorem test_illformed_words :
    ([0x0000, 0x00E1, 0x01E0, 0x0123, 0x5001, 0x5AB7].any fun w : Word => Word.isInstruction w) = false := by decide

/-- V-DEC-7 to V-DEC-14. -/
theorem test_illformed_words_upper :
    ([0x8008, 0x800F, 0x9001, 0xE000, 0xE19F, 0xF000, 0xF166, 0xFFFF].any fun w : Word => Word.isInstruction w) = false := by
  decide

theorem test_illformed_capacity : (({ Config.default with memCapacity := 4095 } : Config)).valid = false := by decide

theorem test_illformed_width : (({ Config.default with displayWidth := 0 } : Config)).valid = false := by decide

theorem test_illformed_height : (({ Config.default with displayHeight := 0 } : Config)).valid = false := by decide

/-- A zero entry, two entries out of order, two entries of one address. -/
theorem test_illformed_memory :
    Memory.wf [(5, 0)] = false ∧ Memory.wf [(6, 1), (5, 1)] = false ∧ Memory.wf [(5, 1), (5, 2)] = false ∧
      Memory.inRange 4096 [(4096, 1)] = false := by decide

theorem test_illformed_grid : Grid.hasSize 2 2 [[true, false], [true]] = false ∧ Grid.hasSize 1 2 [[true]] = false := by
  decide

/-! ## Memory -/

/-- Writing what an unlisted byte reads as removes the entry. -/
theorem test_memory_canonical : ((Memory.write [] 7 3).write 7 0) = [] := by decide

theorem test_reset_memory : State.reset.mem.wf = true := by decide

/-! ## Single steps, from 95_test_vectors.md -/

/-- The state after reset with `PC` at an address and a word placed there. -/
def startAt (pc op : Word) : State := (State.reset.setPc pc).placeWord op

/-- The state after reset with a word placed at `PC`. -/
def start (op : Word) : State := startAt 0x200 op

/-- Some registers set. -/
def regs (rs : List (Reg × Byte)) (s : State) : State := rs.foldl (fun s r => s.setReg r.1 r.2) s

/-- Some bytes placed. -/
def bytes (a : Nat) (bs : List Byte) (s : State) : State := s.setMem (s.mem.writeList a bs)

/-- Some keys held down. -/
def held (ks : List Key) (s : State) : State := s.setKeys (Vector.ofFn fun k => ks.contains k)

/-- The configuration changed. -/
def configured (f : Config → Config) (s : State) : State := { s with config := f s.config }

/-- The capacity 4069 selected (00_scope.md R6). -/
def small (s : State) : State := configured (fun c => { c with memCapacity := 4069 }) s

/-- What one step leaves, seen through `f`. -/
def after (f : State → α) (s : State) : Option α :=
  match step s with
  | .next t => some (f t)
  | _ => none

/-- The bytes from an address on. -/
def see (a n : Nat) (s : State) : List Byte := (List.range n).map fun k => s.mem.read (a + k)

/-- V-DSP-1. -/
theorem test_cls :
    after (fun t => (t.grid.cell 10 5, t.events, t.reg VF, t.pc)) (regs [(VF, 0x55)] ((start 0x00E0).setGrid (State.reset.grid.flip 10 5))) =
      some (false, [.clear], 0x55, 0x202) := by decide

/-- V-DSP-2. -/
theorem test_drw_clips :
    after (fun t => (t.events, t.reg VF)) (bytes 0x300 [0xC0] ((regs [(0, 0x3F)] (start 0xD011)).setI 0x300)) =
      some ([.flip 63 0 false, .present], 0) := by decide

/-- V-DSP-3. -/
theorem test_drw_wraps :
    after (fun t => (t.events, t.grid.cell 0 0))
      (bytes 0x300 [0xC0] ((regs [(0, 0x3F)] ((start 0xD011).withWrapQuirk true)).setI 0x300)) =
      some ([.flip 63 0 false, .flip 0 0 false, .present], true) := by decide

/-- V-CF-1. -/
theorem test_ret :
    after (fun t => (t.pc, t.stack)) ((startAt 0x300 0x00EE).setStack [0x204]) = some (0x204, []) := by decide

/-- V-CF-2. -/
theorem test_ret_underflow :
    after (fun t => (t.pc, t.mode)) (startAt 0x300 0x00EE) = some (0x300, .faulted .stackUnderflow) := by decide

/-- V-CF-3. -/
theorem test_jp :
    after (fun t => t.pc) (start 0x1ABC) = some 0xABC := by decide

/-- V-CF-5. -/
theorem test_call :
    after (fun t => (t.pc, t.stack)) (start 0x2300) = some (0x300, [0x202]) := by decide

/-- V-CF-6. -/
theorem test_call_overflow :
    after (fun t => (t.pc, t.mode)) ((start 0x2300).setStack (List.replicate 16 0x202)) =
      some (0x200, .faulted .stackOverflow) := by decide

/-- V-CF-10. -/
theorem test_jpV0_past_twelve_bits :
    after (fun t => t.pc) (regs [(0, 0xFF)] (start 0xBFFF)) = some 0x10FE := by decide

/-- V-CF-13. -/
theorem test_jpV0_always_v0 :
    after (fun t => t.pc) (regs [(5, 1)] (start 0xB5FF)) = some 0x5FF := by decide

/-- V-SK-1, V-SK-2. -/
theorem test_seByte :
    after (fun t => t.pc) (regs [(3, 0x42)] (start 0x3342)) = some 0x204 ∧
      after (fun t => t.pc) (regs [(3, 0x42)] (start 0x3343)) = some 0x202 := by decide

/-- V-SK-3, V-SK-4. -/
theorem test_sneByte :
    after (fun t => t.pc) (regs [(3, 0x42)] (start 0x4342)) = some 0x202 ∧
      after (fun t => t.pc) (regs [(3, 0x42)] (start 0x4343)) = some 0x204 := by decide

/-- V-SK-5, V-SK-6. -/
theorem test_seReg :
    after (fun t => t.pc) (regs [(1, 7), (2, 7)] (start 0x5120)) = some 0x204 ∧
      after (fun t => t.pc) (regs [(1, 7), (2, 8)] (start 0x5120)) = some 0x202 := by decide

/-- V-SK-8, V-SK-9. -/
theorem test_sneReg :
    after (fun t => t.pc) (regs [(1, 7), (2, 8)] (start 0x9120)) = some 0x204 ∧
      after (fun t => t.pc) (regs [(1, 9)] (start 0x9110)) = some 0x202 := by decide

/-- V-SK-10, V-SK-12. -/
theorem test_skp :
    after (fun t => t.pc) (held [5] (regs [(1, 5)] (start 0xE19E))) = some 0x204 ∧
      after (fun t => t.pc) (held [5] (regs [(1, 0x15)] (start 0xE19E))) = some 0x202 := by decide

/-- V-SK-13, V-SK-15. -/
theorem test_sknp :
    after (fun t => t.pc) (held [5] (regs [(1, 5)] (start 0xE1A1))) = some 0x202 ∧
      after (fun t => t.pc) (held [5] (regs [(1, 0x15)] (start 0xE1A1))) = some 0x204 := by decide

/-- V-ALU-1. -/
theorem test_ldByte :
    after (fun t => (t.reg 10, t.pc)) (start 0x6A5C) = some (0x5C, 0x202) := by decide

/-- V-ALU-3. -/
theorem test_addByte_wraps :
    after (fun t => (t.reg 0, t.reg VF)) (regs [(0, 0xFF), (VF, 0x77)] (start 0x7001)) = some (0, 0x77) := by decide

/-- V-ALU-5. -/
theorem test_ldReg :
    after (fun t => (t.reg 0, t.reg 1)) (regs [(1, 0x33)] (start 0x8010)) = some (0x33, 0x33) := by decide

/-- V-ALU-6. -/
theorem test_orReg :
    after (fun t => (t.reg 0, t.reg VF)) (regs [(0, 0xF0), (1, 0x0F), (VF, 0x77)] (start 0x8011)) = some (0xFF, 0x77) := by decide

/-- V-ALU-7. -/
theorem test_andReg :
    after (fun t => (t.reg 0, t.reg VF)) (regs [(0, 0xF0), (1, 0x0F), (VF, 0x77)] (start 0x8012)) = some (0, 0x77) := by decide

/-- V-ALU-8. -/
theorem test_xorReg :
    after (fun t => (t.reg 0, t.reg VF)) (regs [(0, 0xFF), (1, 0x0F), (VF, 0x77)] (start 0x8013)) = some (0xF0, 0x77) := by decide

/-- V-ALU-9. -/
theorem test_addReg :
    after (fun t => (t.reg 0, t.reg VF)) (regs [(0, 0xFA), (1, 0x0A)] (start 0x8014)) = some (4, 1) := by decide

/-- V-ALU-12. -/
theorem test_addReg_into_vf :
    after (fun t => t.reg VF) (regs [(VF, 0xFA), (1, 0x0A)] (start 0x8F14)) = some 1 := by decide

/-- V-ALU-15, V-ALU-16. -/
theorem test_subReg :
    after (fun t => (t.reg 0, t.reg VF)) (regs [(0, 0x0A), (1, 0xFA)] (start 0x8015)) = some (0x10, 0) ∧
      after (fun t => (t.reg 0, t.reg VF)) (regs [(0, 5), (1, 5)] (start 0x8015)) = some (0, 1) := by decide

/-- V-ALU-19. -/
theorem test_subReg_from_vf :
    after (fun t => (t.reg 0, t.reg VF)) (regs [(0, 5), (VF, 3)] (start 0x80F5)) = some (2, 1) := by decide

/-- V-ALU-20. -/
theorem test_shr :
    after (fun t => (t.reg 0, t.reg VF)) (regs [(1, 3)] (start 0x8016)) = some (1, 1) := by decide

/-- V-ALU-24. -/
theorem test_shr_in_place :
    after (fun t => (t.reg 0, t.reg VF)) (regs [(0, 5), (1, 0xFF)] ((start 0x8016).withShiftQuirk false)) = some (2, 1) := by decide

/-- V-ALU-25, V-ALU-26. -/
theorem test_subn :
    after (fun t => (t.reg 0, t.reg VF)) (regs [(0, 0x0A), (1, 0xFA)] (start 0x8017)) = some (0xF0, 1) ∧
      after (fun t => (t.reg 0, t.reg VF)) (regs [(0, 0xFA), (1, 0x0A)] (start 0x8017)) = some (0x10, 0) := by decide

/-- V-ALU-29, V-ALU-30. -/
theorem test_shl :
    after (fun t => (t.reg 0, t.reg VF)) (regs [(1, 0x81)] (start 0x801E)) = some (2, 1) ∧
      after (fun t => (t.reg 0, t.reg VF)) (regs [(1, 0x40), (VF, 1)] (start 0x801E)) = some (0x80, 0) := by decide

/-- V-ALU-32. -/
theorem test_shl_in_place :
    after (fun t => (t.reg 0, t.reg VF)) (regs [(0, 0x80), (1, 1)] ((start 0x801E).withShiftQuirk false)) = some (0, 1) := by decide

/-- V-ALU-34: with the mask 0 the byte drawn does not matter. -/
theorem test_rnd :
    after (fun t => (t.pc, t.draws)) (start 0xC000) = some (0x202, 1) := by decide

/-- V-IM-1. -/
theorem test_ldI :
    after (fun t => t.i) (start 0xA123) = some 0x123 := by decide

/-- V-IM-2. -/
theorem test_addI_wraps :
    after (fun t => (t.i, t.reg VF)) (regs [(4, 5)] ((start 0xF41E).setI 0xFFE)) = some (3, 0) := by decide

/-- V-IM-4, V-IM-5. -/
theorem test_ldF :
    after (fun t => t.i) (regs [(0, 0x0A)] (start 0xF029)) = some 0x032 ∧
      after (fun t => t.i) (regs [(0, 0xFF)] (start 0xF029)) = some 0x4FB := by decide

/-- V-IM-6. -/
theorem test_ldB :
    after (see 0x300 3) (regs [(0, 0xEA)] ((start 0xF033).setI 0x300)) = some [2, 3, 4] := by decide

/-- V-IM-18. -/
theorem test_ldB_out_of_bounds :
    after (fun t => (t.mode, t.mem.read 0xFE3)) (small (regs [(0, 0x7B)] ((start 0xF033).setI 0xFE3))) =
      some (.faulted (.outOfBounds 0xFE5), 0) := by decide

/-- V-IM-11. -/
theorem test_stRegs :
    after (fun t => (see 0x300 3 t, t.i)) (regs [(0, 0x11), (1, 0x22), (2, 0x33)] ((start 0xF155).setI 0x300)) =
      some ([0x11, 0x22, 0], 0x300) := by decide

/-- V-IM-13. -/
theorem test_stRegs_out_of_bounds :
    after (fun t => (t.mode, t.mem.read 0xFF1)) (regs [(0, 0x10)] ((start 0xFF55).setI 0xFF1)) =
      some (.faulted (.outOfBounds 0x1000), 0) := by decide

/-- V-IM-14. -/
theorem test_ldRegs :
    after (fun t => (t.reg 0, t.reg 1, t.reg 2, t.reg 3)) (bytes 0x300 [2, 3, 4, 5] (regs [(3, 0x99)] ((start 0xF265).setI 0x300))) =
      some (2, 3, 4, 0x99) := by decide

/-- V-IM-17. -/
theorem test_ldRegs_out_of_bounds :
    after (fun t => t.mode) (small ((start 0xF065).setI 0xFFF)) = some (.faulted (.outOfBounds 0xFFF)) := by decide

/-- V-TK-1. -/
theorem test_ldVxDt :
    after (fun t => t.reg 5) ((start 0xF507).setDelay 0x3C) = some 0x3C := by decide

/-- V-TK-2, V-TK-4. -/
theorem test_ldVxK :
    after (fun t => (t.reg 2, t.pc)) (held [3, 9] (startAt 0x240 0xF20A)) = some (3, 0x242) ∧
      after (fun t => (t.pc, t.mode)) (startAt 0x240 0xF20A) = some (0x240, .awaitingKey 2) := by decide

/-- V-TK-3. -/
theorem test_ldVxK_consumes :
    after (fun t => (t.reg 2, t.isPressed 3, t.isPressed 9))
      (held [3, 9] (configured (fun c => { c with consumesKey := true }) (startAt 0x240 0xF20A))) = some (3, false, true) := by decide

/-- V-TK-6. -/
theorem test_ldDtVx :
    after (fun t => t.delay) (regs [(1, 0x3C)] ((start 0xF115).setDelay 1)) = some 0x3C := by decide

/-- V-TK-7. -/
theorem test_ldStVx :
    after (fun t => t.sound) (regs [(1, 2)] (start 0xF118)) = some 2 := by decide

/-! ## The step, the tick and the load -/

/-- V-TK-8, V-TK-9. -/
theorem test_wait_ends :
    after (fun t => (t.reg 2, t.pc, t.mode)) (held [0xC] ((startAt 0x240 0xF20A).setMode (.awaitingKey 2))) =
      some (0x0C, 0x242, .running) ∧
      after (fun t => (t.pc, t.mode)) ((startAt 0x240 0xF20A).setMode (.awaitingKey 2)) = some (0x240, .awaitingKey 2) := by decide

/-- V-DEC-15. -/
theorem test_unknown_before_rom :
    after (fun t => (t.pc, t.mode)) (startAt 0x100 0x0000) = some (0x100, .faulted (.unknownOpcode 0x0000 (-256))) := by decide

/-- V-DEC-17, V-DEC-18. -/
theorem test_fetch_last_byte :
    after (fun t => t.mode) (bytes 0xFFF [0x12] (State.reset.setPc 0xFFF)) = some (.faulted (.outOfBounds 0x1000)) ∧
      after (fun t => t.mode) (State.reset.setPc 0x1000) = some (.faulted (.outOfBounds 0x1000)) := by decide

/-- V-DEC-16. -/
theorem test_odd_pc :
    after (fun t => (t.reg 10, t.pc)) (startAt 0x201 0x6A55) = some (0x55, 0x203) := by decide

/-- V-TK-10, V-TK-11. -/
theorem test_tick :
    ((State.reset.setDelay 2).tick.delay, (State.reset.setDelay 2).tick.sound, (State.reset.setSound 1).tick.sound) =
      ((1 : Byte), (0 : Byte), (0 : Byte)) := by decide

/-- V-LD-1, V-LD-2. -/
theorem test_load_to_the_end :
    (Session.call (.load [0xAA, 0xAA] 0xFFE) ⟨State.reset, false⟩).2 = .nothing ∧
      Session.call (.load [0xAA, 0xAA, 0xAA] 0xFFE) ⟨State.reset, false⟩ =
        (⟨State.reset, false⟩, .error (.capacityExceeded 4094 3)) := by decide

/-- V-LD-7. -/
theorem test_load_empty :
    Session.call (.load [] 0) ⟨State.reset, false⟩ = (⟨State.reset, false⟩, .nothing) := by decide

/-- The placed word is fetched whatever was there. -/
theorem test_fetch_word :
    after (fun t => t.reg 10) (State.reset.withFetchWord 16 0x6A5C) = some 0x5C := by decide

/-- With nothing loaded the first step fetches 0000, an unknown word (V-DEC-1). -/
theorem test_first_step_from_reset :
    after (fun t => t.mode) State.reset = some (.faulted (.unknownOpcode 0x0000 0)) := by decide

/-! ## Witnesses: for each statement with hypotheses, a state and operands that meet all of them -/

/-- Every row's own literal bits match the row, so each `DecodesAs` is about some word. -/
theorem witness_DecodesAs : ∀ r ∈ opcodeTable, r.bits &&& r.mask = r.bits := by decide

theorem witness_DecodeReadsBackEveryEncoding :
    (Instr.drw 15 15 0xF).wellFormed = true ∧ (Instr.jp 0xFFF).wellFormed = true := by decide

theorem witness_CreatedMachinesHaveTheInvariant :
    Config.default.valid = true ∧ (({ Config.default with memCapacity := 4069 } : Config)).valid = true := by decide

/-- A machine waiting at an `F20A`. -/
def waiting : State := (startAt 0x240 0xF20A).setMode (.awaitingKey 2)

theorem running_start (op : Word) : (start op).mode = .running := rfl

theorem waiting_mode : waiting.mode = .awaitingKey 2 := rfl

/-- The invariant holds of a machine about to run `6A5C`. -/
theorem witness_inv_running : (start 0x6A5C).Inv where
  memCanonical := by decide
  memWithinCapacity := by decide
  indexTwelveBits := by decide
  pcBounded := by decide
  stackWithinDepth := by decide
  returnAddressesBounded := by
    intro w h
    change w ∈ ([] : List Word) at h
    cases h
  gridSized := by decide
  waitsAtItsInstruction := by
    intro x h
    rw [running_start] at h
    cases h
  neverCapacityExceeded := by
    intro _ _ h
    rw [running_start] at h
    cases h
  configValid := by decide

/-- The invariant holds of a machine that waits for a key. -/
theorem witness_inv_waiting : waiting.Inv where
  memCanonical := by decide
  memWithinCapacity := by decide
  indexTwelveBits := by decide
  pcBounded := by decide
  stackWithinDepth := by decide
  returnAddressesBounded := by
    intro w h
    change w ∈ ([] : List Word) at h
    cases h
  gridSized := by decide
  waitsAtItsInstruction := by decide
  neverCapacityExceeded := by
    intro _ _ h
    rw [waiting_mode] at h
    cases h
  configValid := by decide

theorem witness_StepKeepsTheInvariant :
    (start 0x6A5C).Inv ∧ step (start 0x6A5C) = .next ((start 0x6A5C).setReg 10 0x5C).advancePc :=
  ⟨witness_inv_running, rfl⟩

/-- Every kind of host call, none creating an ill-formed machine. -/
def calls : List HostCall :=
  [.load [0xAA] 0x300, .step, .tick, .input (Vector.replicate 16 true), .restart Config.default Launch.zeroInit]

theorem witness_HostCallsKeepTheInvariant :
    Session.Inv ⟨start 0x6A5C, false⟩ ∧ Session.Inv ⟨waiting, true⟩ ∧ ∀ c ∈ calls, c.valid = true :=
  ⟨⟨witness_inv_running, fun _ => rfl⟩, ⟨witness_inv_waiting, fun h => nomatch h⟩, by decide⟩

/-- The last place a word can stand, 0xFFE. -/
theorem witness_StepRunsTheDecodedInstruction :
    (startAt 0xFFE 0xD345).mode = .running ∧
      (startAt 0xFFE 0xD345).pc.toNat + 1 < (startAt 0xFFE 0xD345).config.memCapacity ∧
      decode (composeWord ((startAt 0xFFE 0xD345).mem.read 0xFFE) ((startAt 0xFFE 0xD345).mem.read 0xFFF)) =
        .ok (.drw 3 4 5) := by decide

theorem witness_PlacedInstructionIsTheNextToRun :
    State.reset.mem.wf = true ∧ State.reset.pc.toNat + 1 < State.reset.config.memCapacity ∧
      decodeTableWord 16 0xD345 = some (.drw 3 4 5) := by decide

/-- Each clause at its boundary: 0x1000, 0xFFF, 0xFFE. -/
theorem witness_FetchPastMemoryRaisesOutOfBounds :
    (State.reset.setPc 0x1000).mode = .running ∧
      State.reset.config.memCapacity ≤ (State.reset.setPc 0x1000).pc.toNat ∧
      (State.reset.setPc 0xFFF).pc.toNat < State.reset.config.memCapacity ∧
      State.reset.config.memCapacity ≤ (State.reset.setPc 0xFFF).pc.toNat + 1 ∧
      (State.reset.setPc 0xFFE).pc.toNat + 1 < State.reset.config.memCapacity := by decide

theorem witness_UnknownWordRaisesUnknownOpcode :
    (start 0x5001).mode = .running ∧ (start 0x5001).fetch = .ok 0x5001 ∧
      (∀ r ∈ opcodeTable, r.covers 0x5001 = false) ∧ (start 0x5000).mode = .running ∧
      (start 0x5000).fetch = .ok 0x5000 ∧ ∃ r ∈ opcodeTable, r.covers 0x5000 = true := by decide

theorem witness_StepWhileAwaitingAKey :
    waiting.mode = .awaitingKey 2 ∧ (∀ k : Key, waiting.keys[k.val] = false) ∧
      (held [3, 9] waiting).mode = .awaitingKey 2 ∧ (held [3, 9] waiting).keys[(3 : Key).val] = true ∧
      (∀ j : Key, j < 3 → (held [3, 9] waiting).keys[j.val] = false) ∧
      (held [15] waiting).keys[(15 : Key).val] = true ∧
      (∀ j : Key, j < 15 → (held [15] waiting).keys[j.val] = false) := by decide

/-- A machine stopped by an error. -/
def stopped : State := State.reset.setMode (.faulted .stackUnderflow)

theorem witness_StepWhileFaultedChangesNothing : stopped.mode = .faulted .stackUnderflow := by decide

theorem witness_ErrorsArePrecise :
    step (start 0x00EE) = .next ((start 0x00EE).raise .stackUnderflow) ∧
      ((start 0x00EE).raise .stackUnderflow).mode = .faulted .stackUnderflow := ⟨rfl, rfl⟩

/-- Every kind of host call but a restart. -/
def keeping : List HostCall := [.load [0xAA] 0x300, .step, .tick, .input (Vector.replicate 16 true)]

/-- Also for the configuration and the refused load. -/
theorem witness_FaultedUntilRestart :
    (Session.mk stopped true).core.mode = .faulted .stackUnderflow ∧ (Session.mk stopped true).started = true ∧
      ∀ c ∈ keeping, c.keepsMachine = true := by decide

/-- One key wait that suspends, one step that does not. -/
theorem witness_OnlyTheKeyWaitSuspends :
    (startAt 0x240 0xF20A).mode = .running ∧ step (startAt 0x240 0xF20A) = .next waiting ∧
      (start 0x1ABC).mode = .running ∧ step (start 0x1ABC) = .next ((start 0x1ABC).setPc 0xABC) :=
  ⟨rfl, rfl, rfl, rfl⟩

/-- Also for the sound timer's statement. -/
theorem witness_EveryInstructionWritesOnlyItsParts :
    exec (.ldStVx 1) State.reset = .next (State.reset.setSound 0).advancePc := rfl

theorem witness_QuirkFlagsChangeOnlyShiftsAndDraw :
    (Instr.drw 1 2 3).readsShiftQuirk = false ∧ (Instr.shr 1 2).readsWrapQuirk = false := by decide

theorem witness_OnlyKeyInstructionsReadThePressedSet : (Instr.drw 1 2 3).readsKeys = false := by decide

/-- A step that makes display calls, on a valid configuration; the corner cell of a sized grid. -/
theorem witness_DisplayCallsDetermineTheGrid :
    step (start 0x00E0) = .next (start 0x00E0).displayClear.advancePc ∧ (start 0x00E0).config.valid = true ∧
      State.reset.grid.hasSize 64 32 = true ∧ 63 < 64 ∧ 31 < 32 := ⟨rfl, by decide⟩

theorem witness_ParkedMachineStaysParked : (start 0x1200).Parked :=
  ⟨rfl, 0x200, by decide, by decide⟩

/-- Sixteen bytes up to the last address (V-IM-12), the word at 0xFFE made of V[14] and V[15]. -/
theorem witness_StoredBytesAreFetched :
    State.reset.mem.wf = true ∧ (State.reset.setI 0xFF0).i.toNat + (15 : Reg).val < State.reset.config.memCapacity ∧
      (14 : Reg) < 15 ∧ (15 : Reg).val = (14 : Reg).val + 1 ∧ (State.reset.setI 0xFF0).i.toNat + 14 < 2 ^ 16 := by decide

/-- V-DSP-13 fits exactly, V-DSP-12 fails at its third row, an `n` of 0 needs no memory. -/
theorem witness_DrawFlipsTheSpritesCellsInOrder :
    (State.reset.setI 0xFFE).i.toNat + (2 : Nibble).toNat ≤ State.reset.config.memCapacity ∧ (0 : Nibble).toNat = 0 ∧
      2 < (3 : Nibble).toNat ∧ State.reset.config.memCapacity ≤ (State.reset.setI 0xFFE).i.toNat + 2 ∧
      ∀ j < 2, (State.reset.setI 0xFFE).i.toNat + j < State.reset.config.memCapacity := by decide

/-- The origin at the last cell; also what the statement with wrap needs. -/
theorem witness_DrawWithoutWrapTogglesTheCoveredCells :
    State.reset.config.spriteWraps = false ∧ (State.reset.withWrapQuirk true).config.spriteWraps = true ∧
      State.reset.grid.hasSize State.reset.config.displayWidth State.reset.config.displayHeight = true ∧
      State.reset.i.toNat + (15 : Nibble).toNat ≤ State.reset.config.memCapacity ∧
      ((regs [(0, 0x3F), (1, 0x1F)] State.reset).reg 0).toNat % State.reset.config.displayWidth = 63 ∧
      ((regs [(0, 0x3F), (1, 0x1F)] State.reset).reg 1).toNat % State.reset.config.displayHeight = 31 := by decide

/-- The smallest grid the statement admits for a sprite of one row: 8 by 1. -/
theorem witness_DrawWithWrapTogglesTheWrappedCells :
    ∃ s : State, s.config.spriteWraps = true ∧ s.grid.hasSize 8 1 = true ∧ s.config.displayWidth = 8 ∧
      s.config.displayHeight = 1 ∧ 8 ≤ s.config.displayWidth ∧ (1 : Nibble).toNat ≤ s.config.displayHeight ∧
      0 < s.config.displayHeight ∧ s.i.toNat + (1 : Nibble).toNat ≤ s.config.memCapacity :=
  ⟨State.launch { Config.default with displayWidth := 8, displayHeight := 1, spriteWraps := true } Launch.zeroInit,
    by decide⟩

/-- A sprite byte at `I` with a set bit, every cell off. -/
theorem witness_DrawingTwiceRestoresTheGrid :
    (0 : Reg) ≠ VF ∧ (bytes 0x300 [0x80] (State.reset.setI 0x300)).i.toNat + (1 : Nibble).toNat ≤ 4096 ∧
      (bytes 0x300 [0x80] (State.reset.setI 0x300)).config.memCapacity = 4096 ∧
      State.reset.config.spriteWraps = false ∧ State.reset.grid.hasSize 64 32 = true ∧
      (bytes 0x300 [0x80] (State.reset.setI 0x300)).drawnCells 0 0 1 = [(0, 0)] ∧
      State.reset.grid.cell 0 0 = false := by decide

/-- Each instruction whose range ends at the last byte, and one byte further. -/
theorem witness_MemoryInstructionsCheckTheirRangeFirst :
    (∀ k < 3, (State.reset.setI 0xFFD).i.toNat + k < State.reset.config.memCapacity) ∧
      (∀ k < 16, (State.reset.setI 0xFF0).i.toNat + k < State.reset.config.memCapacity) ∧
      State.reset.config.memCapacity ≤ (State.reset.setI 0xFFE).i.toNat + 2 ∧
      (∀ j < 2, (State.reset.setI 0xFFE).i.toNat + j < State.reset.config.memCapacity) ∧
      State.reset.config.memCapacity ≤ (State.reset.setI 0xFF1).i.toNat + 15 ∧
      (∀ j < 15, (State.reset.setI 0xFF1).i.toNat + j < State.reset.config.memCapacity) := by decide

/-- The first byte already fails: `I` = 0xFFF with capacity 4069 (V-IM-17). -/
theorem witness_RangeFailsAtItsFirstByte :
    (small (State.reset.setI 0xFFF)).config.memCapacity ≤ (small (State.reset.setI 0xFFF)).i.toNat + 0 := by decide

theorem witness_ReturnPopsTheStackIntoPc :
    (State.reset.setStack [0x204]).stack = 0x204 :: [] ∧ State.reset.stack = [] := by decide

/-- Fifteen entries and sixteen. -/
theorem witness_CallPushesTheReturnAddress :
    (State.reset.setStack (List.replicate 15 0x202)).stack.length < State.reset.config.stackDepth ∧
      State.reset.config.stackDepth ≤ (State.reset.setStack (List.replicate 16 0x202)).stack.length := by decide

theorem witness_RegisterSkipsCompareTwoRegisters :
    fieldA 0x5001 = 0x5#4 ∧ fieldN 0x5001 ≠ 0x0#4 ∧ fieldA 0x900F = 0x9#4 ∧ fieldN 0x900F ≠ 0x0#4 := by decide

/-- Key 0xF pressed, and no key of number 0x15. -/
theorem witness_KeySkipsTestThePressedSet :
    (∃ k : Key, ((regs [(1, 0xF)] State.reset).reg 1).toNat = k.val ∧ (held [15] State.reset).keys[k.val] = true) ∧
      ¬∃ k : Key, ((regs [(1, 0x15)] State.reset).reg 1).toNat = k.val ∧ (held [5] State.reset).keys[k.val] = true := by
  decide

theorem witness_FlagInstructionsLeaveABitInVf :
    Instr.shl 1 VF ∈ [Instr.addReg 1 VF, .subReg 1 VF, .shr 1 VF, .subn 1 VF, .shl 1 VF, .drw 1 VF 1] ∧
      exec (.shl 1 VF) State.reset = .next (State.reset.setResultAndFlag 1 0 0).advancePc ∧
      (State.reset.setResultAndFlag 1 0 0).advancePc.mode = State.reset.mode ∧ State.reset.mode = .running :=
  ⟨by decide, rfl, rfl, rfl⟩

theorem witness_DecimalDigitsAreStored :
    State.reset.mem.wf = true ∧ (State.reset.setI 0xFFD).i.toNat + 2 < State.reset.config.memCapacity ∧
      State.reset.config.memCapacity ≤ (State.reset.setI 0xFFF).i.toNat + 1 ∧
      ∀ j < 1, (State.reset.setI 0xFFF).i.toNat + j < State.reset.config.memCapacity := by decide

/-- Also for the load, and for the store followed by the load. -/
theorem witness_RegistersAreStoredFromIOn :
    State.reset.mem.wf = true ∧ (State.reset.setI 0xFFF).i.toNat + (0 : Reg).val < State.reset.config.memCapacity ∧
      1 ≤ (1 : Reg).val ∧ State.reset.config.memCapacity ≤ (State.reset.setI 0xFFF).i.toNat + 1 ∧
      ∀ j < 1, (State.reset.setI 0xFFF).i.toNat + j < State.reset.config.memCapacity := by decide

/-- The state after the store itself meets what the second instruction needs. -/
theorem witness_StoreThenLoadRestoresTheRegisters :
    ∃ t, exec (.stRegs 1) (State.reset.setI 0x300) = .next t ∧ t.i = 0x300 ∧ t.config.memCapacity = 4096 :=
  ⟨(State.reset.setI 0x300).advancePc, rfl, rfl, rfl⟩

theorem witness_KeyWaitTakesTheLowestKeyOrSuspends :
    (∀ k : Key, State.reset.keys[k.val] = false) ∧ (held [15] State.reset).keys[(15 : Key).val] = true ∧
      ∀ j : Key, j < 15 → (held [15] State.reset).keys[j.val] = false := by decide

/-- V-LD-1 and V-LD-2: exactly to the end, and one byte past it. -/
theorem witness_LoadCopiesAllOrNothing :
    0xFFE + [(0xAA : Byte), 0xAA].length ≤ State.reset.config.memCapacity ∧
      State.reset.config.memCapacity < 0xFFE + [(0xAA : Byte), 0xAA, 0xAA].length ∧ State.reset.mem.wf = true ∧
      0 < [(0xAA : Byte), 0xAA].length := by decide

end Sys2Proof.Tests
end

namespace Sys2Proof

/-! ## Decoding and encoding (30_encoding.md R73 to R78) -/

/-- The decoder reads back the encoding of every instruction (30_encoding.md R78). -/
@[simp] theorem decode_encode (i : Instr) : decode (encode i) = .ok i := by
  cases i with
  | cls | ret => decide
  | seReg | sneReg => simp [encode, decode, decodeLowZero]
  | ldReg | orReg | andReg | xorReg | addReg | subReg | shr | subn | shl => simp [encode, decode, decodeFamily8]
  | skp | sknp => simp [encode, decode, decodeFamilyE]
  | ldVxDt | ldVxK | ldDtVx | ldStVx | addI | ldF | ldB | stRegs | ldRegs => simp [encode, decode, decodeFamilyF]
  | _ => simp [encode, decode]

theorem encode_of_decodeFamily0 {op : Word} {i : Instr} (h : decodeFamily0 op = .ok i) : encode i = op := by
  unfold decodeFamily0 at h
  split at h <;> cases h <;> rfl

theorem encode_of_decodeLowZero {op : Word} {i j : Instr} (h : decodeLowZero op j = .ok i)
    (hj : fieldN op = 0x0#4 → encode j = op) : encode i = op := by
  unfold decodeLowZero at h
  split at h <;> cases h
  exact hj ‹_›

theorem wordXYN_eq {op : Word} {a d : Nibble} (ha : fieldA op = a) (hd : fieldN op = d) :
    wordXYN a (fieldX op) (fieldY op) d = op := by
  rw [← ha, ← hd, wordXYN_fields]

theorem wordXNN_eq {op : Word} {a : Nibble} {nn : Byte} (ha : fieldA op = a) (hn : fieldNN op = nn) :
    wordXNN a (fieldX op) nn = op := by
  rw [← ha, ← hn, wordXNN_fields]

theorem wordNNN_eq {op : Word} {a : Nibble} (ha : fieldA op = a) : wordNNN a (fieldNNN op) = op := by
  rw [← ha, wordNNN_fields]

theorem encode_of_decodeFamily8 {op : Word} {i : Instr} (ha : fieldA op = 0x8#4) (h : decodeFamily8 op = .ok i) :
    encode i = op := by
  unfold decodeFamily8 at h
  split at h <;> cases h <;> exact wordXYN_eq ha ‹_›

theorem encode_of_decodeFamilyE {op : Word} {i : Instr} (ha : fieldA op = 0xE#4) (h : decodeFamilyE op = .ok i) :
    encode i = op := by
  unfold decodeFamilyE at h
  split at h <;> cases h <;> exact wordXNN_eq ha ‹_›

theorem encode_of_decodeFamilyF {op : Word} {i : Instr} (ha : fieldA op = 0xF#4) (h : decodeFamilyF op = .ok i) :
    encode i = op := by
  unfold decodeFamilyF at h
  split at h <;> cases h <;> exact wordXNN_eq ha ‹_›

/-- A word that decodes is the encoding of its instruction (30_encoding.md R76, R78). -/
theorem encode_of_decode {op : Word} {i : Instr} (h : decode op = .ok i) : encode i = op := by
  unfold decode at h
  split at h
  · exact encode_of_decodeFamily0 h
  · cases h; exact wordNNN_eq ‹_›
  · cases h; exact wordNNN_eq ‹_›
  · cases h; exact wordXNN_eq ‹_› rfl
  · cases h; exact wordXNN_eq ‹_› rfl
  · exact encode_of_decodeLowZero h (wordXYN_eq ‹_›)
  · cases h; exact wordXNN_eq ‹_› rfl
  · cases h; exact wordXNN_eq ‹_› rfl
  · exact encode_of_decodeFamily8 ‹_› h
  · exact encode_of_decodeLowZero h (wordXYN_eq ‹_›)
  · cases h; exact wordNNN_eq ‹_›
  · cases h; exact wordNNN_eq ‹_›
  · cases h; exact wordXNN_eq ‹_› rfl
  · cases h; exact wordXYN_eq ‹_› rfl
  · exact encode_of_decodeFamilyE ‹_› h
  · have ha : fieldA op = 0xF#4 := by
      clear h
      generalize fieldA op = a at *
      decide +revert
    exact encode_of_decodeFamilyF ha h

/-- The word of two bytes is the first times 256 plus the second (20_memory.md R55). -/
theorem composeWord_toNat (hi lo : Byte) : (composeWord hi lo).toNat = hi.toNat * 256 + lo.toNat := by
  have hh : hi.toNat * 2 ^ 8 < 2 ^ 16 := by have := hi.isLt; omega
  rw [composeWord, BitVec.toNat_or, BitVec.toNat_shiftLeft, BitVec.toNat_setWidth_of_le (by omega),
    BitVec.toNat_setWidth_of_le (by omega), Nat.shiftLeft_eq, Nat.mod_eq_of_lt hh, ← Nat.shiftLeft_eq,
    ← Nat.shiftLeft_add_eq_or_of_lt lo.isLt, Nat.shiftLeft_eq]

/-- A valid configuration has at most 4096 bytes of memory (00_scope.md R6). -/
theorem Config.memCapacity_le {c : Config} (h : c.valid = true) : c.memCapacity ≤ 4096 := by
  simp only [Config.valid, Bool.and_eq_true, Bool.or_eq_true, beq_iff_eq, decide_eq_true_eq] at h
  omega

end Sys2Proof

namespace Sys2Proof.Machine

/-! ## Totality and frames of whole instructions (10_state.md R25, R31, R37) -/

/-- However a handler ends, its instruction answers a next state. -/
theorem finish_answers (s : State) (r : Result) : ∃ t, finish s r = .next t := by
  cases r <;> exact ⟨_, rfl⟩

/-- A skip moves `PC` by 4 or by 2 and does nothing else (42_skips.md R120). -/
theorem finish_skipIf {s t : State} {c : Bool} (h : finish s (s.skipIf c) = .next t) :
    t = s.setPc (s.pc + 4#16) ∨ t = s.setPc (s.pc + 2#16) := by
  cases c <;> cases h
  · exact Or.inr rfl
  · exact Or.inl rfl

/-- Every instruction answers a next state: an error is the next state `Faulted(e)` (log 9). -/
theorem exec_answers (i : Instr) (s : State) : ∃ t, exec i s = .next t := by
  cases i with
  | ret => rcases exec_ret s with ⟨_, _, _, h⟩ | ⟨_, h⟩ <;> exact ⟨_, h⟩
  | call nnn => rcases exec_call s nnn with ⟨_, h⟩ | ⟨_, h⟩ <;> exact ⟨_, h⟩
  | drw x y n => rcases exec_drw s x y n with ⟨_, h⟩ | ⟨_, _, h⟩ <;> exact ⟨_, h⟩
  | ldB x => rcases exec_ldB s x with ⟨_, h⟩ | ⟨_, _, h⟩ <;> exact ⟨_, h⟩
  | stRegs x => rcases exec_stRegs s x with ⟨_, h⟩ | ⟨_, _, h⟩ <;> exact ⟨_, h⟩
  | ldRegs x => rcases exec_ldRegs s x with ⟨_, h⟩ | ⟨_, _, h⟩ <;> exact ⟨_, h⟩
  | ldVxK x => rcases exec_ldVxK s x with ⟨_, h⟩ | ⟨_, _, h⟩ <;> exact ⟨_, h⟩
  | seByte | sneByte | seReg | sneReg | skp | sknp => exact finish_answers s (s.skipIf _)
  | _ => exact ⟨_, rfl⟩

theorem step_running {s : State} (hm : s.mode = .running) : step s = stepRunning s := by simp only [step, hm]

theorem step_awaiting {s : State} {x : Reg} (hm : s.mode = .awaitingKey x) : step s = stepAwaiting x s := by
  simp only [step, hm]

theorem step_faulted {s : State} {e : Error} (hm : s.mode = .faulted e) : step s = .next s := by simp only [step, hm]

theorem stepRunning_of_fetch_error {s : State} {e : Error} (hf : s.fetch = .error e) :
    stepRunning s = .next (s.raise e) := by simp only [stepRunning, hf, finish]

theorem stepRunning_of_unknown {s : State} {op : Word} {e : DecodeError} (hf : s.fetch = .ok op)
    (hd : decode op = .error e) : stepRunning s = .next (s.raise (s.unknownOpcode op)) := by
  simp only [stepRunning, hf, runWord, hd, finish]

theorem stepRunning_of_decode {s : State} {op : Word} {i : Instr} (hf : s.fetch = .ok op) (hd : decode op = .ok i) :
    stepRunning s = exec i s := by simp only [stepRunning, hf, runWord, hd]

theorem stepAwaiting_none {s : State} (x : Reg) (hk : s.lowestKey = none) : stepAwaiting x s = .next s := by
  simp only [stepAwaiting, hk]

theorem stepAwaiting_some {s : State} (x : Reg) {k : Key} (hk : s.lowestKey = some k) :
    stepAwaiting x s = .next ((s.takeKey x k).advancePc.setMode .running) := by simp only [stepAwaiting, hk]

theorem step_answers (s : State) : ∃ t, step s = .next t := by
  cases hm : s.mode with
  | running =>
    rw [step_running hm]
    cases hf : s.fetch with
    | error e => exact ⟨_, stepRunning_of_fetch_error hf⟩
    | ok op =>
      cases hd : decode op with
      | error e => exact ⟨_, stepRunning_of_unknown hf hd⟩
      | ok i => rw [stepRunning_of_decode hf hd]; exact exec_answers i s
  | awaitingKey x =>
    rw [step_awaiting hm]
    cases hk : s.lowestKey with
    | none => exact ⟨_, stepAwaiting_none x hk⟩
    | some k => exact ⟨_, stepAwaiting_some x hk⟩
  | faulted e => exact ⟨_, step_faulted hm⟩

@[simp] theorem parts_iff {ps : List Part} {p : Part} : Parts ps p ↔ p ∈ ps := Iff.rfl

@[simp] theorem partsAndBytes_iff {ps : List Part} {base n : Nat} {p : Part} :
    PartsAndBytes ps base n p ↔ p ∈ ps ∨ ∃ k < n, p = .byte (base + k) := Iff.rfl

@[simp] theorem partsAndRegs_iff {ps : List Part} {x : Reg} {p : Part} :
    PartsAndRegs ps x p ↔ p ∈ ps ∨ ∃ r ≤ x, p = .reg r := Iff.rfl

/-- Every instruction may write `PC`. -/
theorem mayWrite_pc (i : Instr) (s : State) : i.mayWrite s .pc := by
  cases i <;> simp [Instr.mayWrite]

/-- The frame of an operation that writes one part, as part of a larger frame. -/
theorem KeepsAllBut.of_single {q : Part} {w : Part → Prop} {s t : State} (h : KeepsAllBut (· = q) s t) (hq : w q) :
    KeepsAllBut w s t := h.mono fun p hp => by subst hp; exact hq

/-- Where `PC` may be written, a frame also holds after the advance. -/
theorem KeepsAllBut.advancePc {w : Part → Prop} {s t : State} (h : KeepsAllBut w s t) (hpc : w .pc) :
    KeepsAllBut w s t.advancePc := h.trans (t.advancePc_keeps.of_single hpc)

theorem State.displayClear_keeps (s : State) : KeepsAllBut (Parts [.grid, .events]) s s.displayClear :=
  ((s.setGrid_keeps _).of_single (by simp)).trans ((State.emit_keeps .clear _).of_single (by simp))

theorem State.drawSprite_keeps (x y : Reg) (rows : List Byte) (s : State) :
    KeepsAllBut (Parts [.reg VF, .grid, .events]) s (s.drawSprite x y rows) :=
  (((s.setReg_keeps VF _).of_single (by simp)).trans (State.flipAll_keeps _ _)).trans
    ((State.emit_keeps .present _).of_single (by simp))

theorem State.writeList_keeps {base n : Nat} {xs : List Byte} (hn : xs.length = n) (s : State) :
    KeepsAllBut (PartsAndBytes [.pc, .mode] base n) s (s.setMem (s.mem.writeList base xs)) := by
  subst hn
  exact (s.setMem_writeList_keeps base xs).mono fun _ hp => Or.inr (hp.resolve_left (by simp))

theorem State.setRegs_keepsUpTo (x : Reg) {bs : List Byte} (hb : bs.length = x.val + 1) (s : State) :
    KeepsAllBut (PartsAndRegs [.pc, .mode] x) s (State.setRegs 0 bs s) := by
  refine (State.setRegs_keeps 0 bs s).mono ?_
  rintro p ⟨r, _, hr, rfl⟩
  exact Or.inr ⟨r, Fin.le_def.mpr (by omega), rfl⟩

/-- The frame of every instruction: what is not in `mayWrite` is kept. -/
theorem exec_keeps {i : Instr} {s t : State} (h : exec i s = .next t) : KeepsAllBut (i.mayWrite s) s t := by
  have hpc := mayWrite_pc i s
  cases i with
  | cls => cases h; exact (s.displayClear_keeps.mono (by simp +contextual [Instr.mayWrite])).advancePc hpc
  | ret =>
    rcases exec_ret s with ⟨w, rest, _, h'⟩ | ⟨_, h'⟩ <;> cases h'.symm.trans h
    · exact ((s.setStack_keeps rest).of_single (by simp [Instr.mayWrite])).trans ((State.setPc_keeps w _).of_single hpc)
    · exact (s.raise_keeps _).of_single (by simp [Instr.mayWrite])
  | call nnn =>
    rcases exec_call s nnn with ⟨_, h'⟩ | ⟨_, h'⟩ <;> cases h'.symm.trans h
    · exact ((s.setStack_keeps _).of_single (by simp [Instr.mayWrite])).trans ((State.setPc_keeps _ _).of_single hpc)
    · exact (s.raise_keeps _).of_single (by simp [Instr.mayWrite])
  | jp | jpV0 => cases h; exact (s.setPc_keeps _).of_single hpc
  | seByte | sneByte | seReg | sneReg | skp | sknp =>
    rcases finish_skipIf h with rfl | rfl <;> exact (s.setPc_keeps _).of_single hpc
  | ldByte | addByte | ldReg | orReg | andReg | xorReg | ldVxDt =>
    cases h
    exact ((s.setReg_keeps _ _).of_single (by simp [Instr.mayWrite])).advancePc hpc
  | addReg | subReg | shr | subn | shl =>
    cases h
    exact ((s.setResultAndFlag_keeps _ _ _).mono (by simp +contextual [Instr.mayWrite])).advancePc hpc
  | ldI | addI | ldF => cases h; exact ((s.setI_keeps _).of_single (by simp [Instr.mayWrite])).advancePc hpc
  | rnd x nn =>
    cases h
    exact ((s.nextDraw_keeps.of_single (by simp [Instr.mayWrite])).trans
      ((State.setReg_keeps x _ _).of_single (by simp [Instr.mayWrite]))).advancePc hpc
  | drw x y n =>
    rcases exec_drw s x y n with ⟨_, h'⟩ | ⟨_, _, h'⟩ <;> cases h'.symm.trans h
    · exact ((s.drawSprite_keeps x y _).mono (by simp +contextual [Instr.mayWrite])).advancePc hpc
    · exact (s.raise_keeps _).of_single (by simp [Instr.mayWrite])
  | ldVxK x =>
    rcases exec_ldVxK s x with ⟨_, h'⟩ | ⟨k, _, h'⟩ <;> cases h'.symm.trans h
    · exact (s.setMode_keeps _).of_single (by simp [Instr.mayWrite])
    · exact ((s.takeKey_keeps x k).mono (by simp +contextual [Instr.mayWrite])).advancePc hpc
  | ldDtVx => cases h; exact ((s.setDelay_keeps _).of_single (by simp [Instr.mayWrite])).advancePc hpc
  | ldStVx => cases h; exact ((s.setSound_keeps _).of_single (by simp [Instr.mayWrite])).advancePc hpc
  | ldB x =>
    rcases exec_ldB s x with ⟨_, h'⟩ | ⟨_, _, h'⟩ <;> cases h'.symm.trans h
    · exact (s.writeList_keeps (xs := decimalDigits _) (n := 3) rfl).advancePc hpc
    · exact (s.raise_keeps _).of_single (by simp [Instr.mayWrite])
  | stRegs x =>
    rcases exec_stRegs s x with ⟨_, h'⟩ | ⟨_, _, h'⟩ <;> cases h'.symm.trans h
    · exact (s.writeList_keeps (s.regsUpTo_length x)).advancePc hpc
    · exact (s.raise_keeps _).of_single (by simp [Instr.mayWrite])
  | ldRegs x =>
    rcases exec_ldRegs s x with ⟨_, h'⟩ | ⟨_, _, h'⟩ <;> cases h'.symm.trans h
    · exact (s.setRegs_keepsUpTo x (by simp)).advancePc hpc
    · exact (s.raise_keeps _).of_single (by simp [Instr.mayWrite])

/-! ## The invariant (10_state.md R26, R29, R32, R35, R36; 20_memory.md R50; 60_exceptions.md R171) -/

/-- The clauses of `State.Inv` that do not speak of `PC` and the mode. -/
structure State.DataInv (s : State) : Prop where
  memCanonical : s.mem.wf = true
  memWithinCapacity : s.mem.inRange s.config.memCapacity = true
  indexTwelveBits : s.i.toNat ≤ 0xFFF
  stackWithinDepth : s.stack.length ≤ s.config.stackDepth
  returnAddressesBounded : ∀ w ∈ s.stack, w.toNat ≤ s.config.memCapacity
  gridSized : s.grid.hasSize s.config.displayWidth s.config.displayHeight = true
  configValid : s.config.valid = true

theorem State.Inv.data {s : State} (h : s.Inv) : s.DataInv := { h with }

/-- The invariant, its clauses about `PC` and the mode apart. -/
theorem State.DataInv.inv {s : State} (h : s.DataInv) (hpc : s.pc.toNat ≤ 0x10FE)
    (hwait : ∀ x, s.mode = .awaitingKey x → s.fetch = .ok (encode (.ldVxK x)))
    (hcap : ∀ offset length, s.mode ≠ .faulted (.capacityExceeded offset length)) : s.Inv :=
  { h with pcBounded := hpc, waitsAtItsInstruction := hwait, neverCapacityExceeded := hcap }

/-- In mode `Running` the invariant says nothing of the mode. -/
theorem State.DataInv.inv_of_running {s : State} (h : s.DataInv) (hpc : s.pc.toNat ≤ 0x10FE)
    (hm : s.mode = .running) : s.Inv := h.inv hpc (by simp [hm]) (by simp [hm])

/-- The data clauses speak of five fields only. -/
theorem State.DataInv.congr {s t : State} (h : s.DataInv) (hmem : t.mem = s.mem) (hi : t.i = s.i)
    (hst : t.stack = s.stack) (hg : t.grid = s.grid) (hc : t.config = s.config) : t.DataInv := by
  constructor <;> simp only [hmem, hi, hst, hg, hc]
  exacts [h.memCanonical, h.memWithinCapacity, h.indexTwelveBits, h.stackWithinDepth, h.returnAddressesBounded,
    h.gridSized, h.configValid]

theorem State.DataInv.advancePc {s : State} (h : s.DataInv) : s.advancePc.DataInv := { h with }

theorem State.DataInv.setPc {s : State} (h : s.DataInv) (w : Word) : (s.setPc w).DataInv := { h with }

theorem State.DataInv.setMode {s : State} (h : s.DataInv) (m : Mode) : (s.setMode m).DataInv := { h with }

theorem State.DataInv.setReg {s : State} (h : s.DataInv) (r : Reg) (b : Byte) : (s.setReg r b).DataInv := { h with }

theorem State.DataInv.setKeys {s : State} (h : s.DataInv) (p : Vector Bool 16) : (s.setKeys p).DataInv := { h with }

theorem State.DataInv.takeKey {s : State} (h : s.DataInv) (x : Reg) (k : Key) : (s.takeKey x k).DataInv := by
  unfold State.takeKey State.consumeKey
  split
  · exact (h.setReg x _).setKeys _
  · exact h.setReg x _

/-- `I` is masked to 12 bits at every assignment (10_state.md R26). -/
theorem State.DataInv.setI {s : State} (h : s.DataInv) (w : Word) : (s.setI w).DataInv :=
  { h with indexTwelveBits := by rw [State.setI_i, BitVec.toNat_and]; exact Nat.and_le_right }

theorem State.DataInv.setStack {s : State} (h : s.DataInv) {st : List Word} (hl : st.length ≤ s.config.stackDepth)
    (hr : ∀ w ∈ st, w.toNat ≤ s.config.memCapacity) : (s.setStack st).DataInv :=
  { h with stackWithinDepth := hl, returnAddressesBounded := hr }

theorem State.DataInv.displayClear {s : State} (h : s.DataInv) : s.displayClear.DataInv :=
  { h with gridSized := Grid.hasSize_clear h.gridSized }

theorem State.DataInv.writeList {s : State} (h : s.DataInv) {base : Nat} {xs : List Byte}
    (hx : base + xs.length ≤ s.config.memCapacity) : (s.setMem (s.mem.writeList base xs)).DataInv :=
  { h with
    memCanonical := Memory.writeList_wf base xs h.memCanonical
    memWithinCapacity := Memory.writeList_inRange (Or.inr hx) h.memWithinCapacity }

theorem State.DataInv.flipAll {s : State} (h : s.DataInv) (ps : List (Nat × Nat)) : (State.flipAll ps s).DataInv := by
  obtain ⟨-, hi, -, hst, -, -, -, hmem, -, hc, -⟩ := State.flipAll_rest ps s
  have hs : (s.setGrid (State.flipAll ps s).grid).DataInv := { h with gridSized := s.flipAll_hasSize ps h.gridSized }
  exact hs.congr hmem hi hst rfl hc

theorem State.DataInv.drawSprite {s : State} (h : s.DataInv) (x y : Reg) (rows : List Byte) :
    (s.drawSprite x y rows).DataInv := { (h.setReg VF 0#8).flipAll _ with }

theorem State.DataInv.setRegs {s : State} (h : s.DataInv) (k : Nat) (bs : List Byte) :
    (State.setRegs k bs s).DataInv := by
  obtain ⟨hi, -, hst, -, -, -, hmem, -, hg, -, hc, -⟩ := State.setRegs_rest k bs s
  exact h.congr hmem hi hst hg hc

/-- An instruction that was fetched keeps the data clauses. -/
theorem exec_keeps_dataInv {i : Instr} {s t : State} (h : s.DataInv) (hpc : s.pc.toNat + 1 < s.config.memCapacity)
    (he : exec i s = .next t) : t.DataInv := by
  cases i with
  | ret =>
    rcases exec_ret s with ⟨w, rest, hs, h'⟩ | ⟨_, h'⟩ <;> cases h'.symm.trans he
    · have hl := h.stackWithinDepth
      have hr := h.returnAddressesBounded
      rw [hs] at hl hr
      exact (h.setStack (Nat.le_of_succ_le hl) fun v hv => hr v (List.mem_cons_of_mem w hv)).setPc w
    · exact h.setMode _
  | call nnn =>
    rcases exec_call s nnn with ⟨hl, h'⟩ | ⟨_, h'⟩ <;> cases h'.symm.trans he
    · have hret : (s.pc + 2#16).toNat ≤ s.config.memCapacity := by
        have := Config.memCapacity_le h.configValid
        rw [BitVec.toNat_add, BitVec.toNat_ofNat]
        omega
      exact (h.setStack (st := _ :: _) hl (List.forall_mem_cons.mpr ⟨hret, h.returnAddressesBounded⟩)).setPc _
    · exact h.setMode _
  | cls => cases he; exact h.displayClear.advancePc
  | seByte | sneByte | seReg | sneReg | skp | sknp => rcases finish_skipIf he with rfl | rfl <;> exact h.setPc _
  | ldI | addI | ldF => cases he; exact (h.setI _).advancePc
  | drw x y n =>
    rcases exec_drw s x y n with ⟨_, h'⟩ | ⟨_, _, h'⟩ <;> cases h'.symm.trans he
    · exact (h.drawSprite x y _).advancePc
    · exact h.setMode _
  | ldVxK x =>
    rcases exec_ldVxK s x with ⟨_, h'⟩ | ⟨k, _, h'⟩ <;> cases h'.symm.trans he
    · exact h.setMode _
    · exact (h.takeKey x k).advancePc
  | ldB x =>
    rcases exec_ldB s x with ⟨hr, h'⟩ | ⟨_, _, h'⟩ <;> cases h'.symm.trans he
    · exact (h.writeList hr).advancePc
    · exact h.setMode _
  | stRegs x =>
    rcases exec_stRegs s x with ⟨hr, h'⟩ | ⟨_, _, h'⟩ <;> cases h'.symm.trans he
    · exact (h.writeList (by rwa [State.regsUpTo_length])).advancePc
    · exact h.setMode _
  | ldRegs x =>
    rcases exec_ldRegs s x with ⟨_, h'⟩ | ⟨_, _, h'⟩ <;> cases h'.symm.trans he
    · exact (h.setRegs 0 _).advancePc
    · exact h.setMode _
  | _ => cases he; exact { h with }

/-- After an instruction fetched below 4096 `PC` is at most 0x10FE, the highest target of `Bnnn` (10_state.md R29). -/
theorem exec_pc_le {i : Instr} {s t : State} (hpc : s.pc.toNat + 1 < 4096) (hret : ∀ w ∈ s.stack, w.toNat ≤ 4096)
    (h : exec i s = .next t) : t.pc.toNat ≤ 0x10FE := by
  have hstay : s.pc.toNat ≤ 0x10FE := by omega
  have hadvance : (s.pc + 2#16).toNat ≤ 0x10FE := by bv_omega
  have hskip : (s.pc + 4#16).toNat ≤ 0x10FE := by bv_omega
  have htarget (nnn : Addr12) : (zextAddr nnn).toNat ≤ 0xFFF := by bv_omega
  cases i with
  | ret =>
    rcases exec_ret s with ⟨w, rest, hs, h'⟩ | ⟨_, h'⟩ <;> cases h'.symm.trans h
    · exact (hret w (by simp [hs])).trans (by decide)
    · exact hstay
  | call nnn =>
    rcases exec_call s nnn with ⟨_, h'⟩ | ⟨_, h'⟩ <;> cases h'.symm.trans h
    · exact (htarget nnn).trans (by decide)
    · exact hstay
  | jp nnn => cases h; exact (htarget nnn).trans (by decide)
  | jpV0 nnn =>
    cases h
    have := htarget nnn
    have : (zext16 (s.reg 0)).toNat ≤ 0xFF := by bv_omega
    rw [State.setPc_pc, State.jumpV0Target]
    bv_omega
  | seByte | sneByte | seReg | sneReg | skp | sknp =>
    rcases finish_skipIf h with rfl | rfl
    · exact hskip
    · exact hadvance
  | drw x y n =>
    rcases exec_drw s x y n with ⟨_, h'⟩ | ⟨_, _, h'⟩ <;> cases h'.symm.trans h
    · rwa [State.advancePc_pc, s.drawSprite_keeps x y _ .pc (by simp)]
    · exact hstay
  | ldVxK x =>
    rcases exec_ldVxK s x with ⟨_, h'⟩ | ⟨k, _, h'⟩ <;> cases h'.symm.trans h
    · exact hstay
    · rwa [State.advancePc_pc, s.takeKey_keeps x k .pc (by simp)]
  | ldB x =>
    rcases exec_ldB s x with ⟨_, h'⟩ | ⟨_, _, h'⟩ <;> cases h'.symm.trans h
    · exact hadvance
    · exact hstay
  | stRegs x =>
    rcases exec_stRegs s x with ⟨_, h'⟩ | ⟨_, _, h'⟩ <;> cases h'.symm.trans h
    · exact hadvance
    · exact hstay
  | ldRegs x =>
    rcases exec_ldRegs s x with ⟨_, h'⟩ | ⟨_, _, h'⟩ <;> cases h'.symm.trans h
    · rwa [State.advancePc_pc, s.setRegs_keeps 0 _ .pc (by simp)]
    · exact hstay
  | _ => cases h; exact hadvance

/-- Raising an error that a step can raise keeps the invariant. -/
theorem State.Inv.raise {s : State} (h : s.Inv) {e : Error}
    (he : ∀ offset length, e ≠ .capacityExceeded offset length) : (s.raise e).Inv :=
  (h.data.setMode _).inv h.pcBounded (fun _ hm => nomatch hm) fun o l hm => he o l (Mode.faulted.inj hm)

/-- A fetch fails only out of bounds (60_exceptions.md R172). -/
theorem State.fetch_error {s : State} {e : Error} (h : s.fetch = .error e) : ∃ a, e = .outOfBounds a := by
  rcases s.fetch_cases with ⟨_, h'⟩ | ⟨_, _, h'⟩ | ⟨_, h'⟩ <;> cases h'.symm.trans h <;> exact ⟨_, rfl⟩

/-- The instruction a running machine fetched keeps the invariant. -/
theorem State.Inv.exec {s t : State} {op : Word} {i : Instr} (h : s.Inv) (hm : s.mode = .running)
    (hf : s.fetch = .ok op) (hd : decode op = .ok i) (he : exec i s = .next t) : t.Inv := by
  have hpc := (State.fetch_ok hf).1
  have hcap := Config.memCapacity_le h.configValid
  rcases exec_mode_cases he with ⟨e, rfl, hne⟩ | ⟨x, rfl, -, rfl⟩ | hmode
  · exact h.raise hne
  · refine (h.data.setMode _).inv h.pcBounded (fun x' hx => ?_) (fun _ _ hx => nomatch hx)
    cases hx
    rw [encode_of_decode hd]
    exact hf
  · exact (exec_keeps_dataInv h.data hpc he).inv_of_running
      (exec_pc_le (by omega) (fun w hw => (h.returnAddressesBounded w hw).trans hcap) he) (hmode.trans hm)

/-- The end of a key wait keeps the invariant: the wait stands at its own `Fx0A` (10_state.md R36, R38). -/
theorem State.Inv.endWait {s : State} (h : s.Inv) {x : Reg} (hm : s.mode = .awaitingKey x) (k : Key) :
    ((s.takeKey x k).advancePc.setMode .running).Inv := by
  have hpc := (State.fetch_ok (h.waitsAtItsInstruction x hm)).1
  have hcap := Config.memCapacity_le h.configValid
  refine ((h.data.takeKey x k).advancePc.setMode _).inv_of_running ?_ rfl
  rw [State.setMode_pc, State.advancePc_pc, s.takeKey_keeps x k .pc (by simp)]
  bv_omega

/-- Every step keeps the invariant. -/
theorem State.Inv.step {s t : State} (h : s.Inv) (hs : step s = .next t) : t.Inv := by
  cases step_cases hs with
  | fetchFails e hm hf =>
    obtain ⟨a, rfl⟩ := State.fetch_error hf
    exact h.raise (by simp)
  | unknown op e hm hf hd => exact h.raise (by simp [State.unknownOpcode])
  | runs op i _ hm hf hd he => exact h.exec hm hf hd he
  | waits => exact h
  | waitEnds x k hm hk => exact h.endWait hm k
  | faulted => exact h

/-- Settles O8: the data clauses, the bound of `PC` and the clauses of the mode, each kept by every case of a step. -/
theorem stepKeepsTheInvariant : Obligations.StepKeepsTheInvariant := fun _ _ h hs => h.step hs

/-! ## Host calls (10_state.md R20, 70_reset_and_hazards.md R190, R197) -/

/-- Everything `load` can answer (20_memory.md R61). -/
theorem State.load_cases (bytes : List Byte) (offset : Nat) (s : State) :
    (offset + bytes.length ≤ s.config.memCapacity ∧
      s.load bytes offset = .next (s.setMem (s.mem.writeList offset bytes))) ∨
    (s.config.memCapacity < offset + bytes.length ∧
      s.load bytes offset = .fault (.capacityExceeded offset bytes.length)) := by
  by_cases h : s.config.memCapacity < offset + bytes.length
  · exact Or.inr ⟨h, if_pos h⟩
  · exact Or.inl ⟨Nat.le_of_not_lt h, if_neg h⟩

/-- A machine created with a valid configuration has the invariant. -/
theorem State.launch_inv {c : Config} (l : Launch) (h : c.valid = true) : (State.launch c l).Inv where
  memCanonical := Memory.writeList_wf 0 _ rfl
  memWithinCapacity := Memory.writeList_inRange (Or.inr (by simp [State.launch])) rfl
  indexTwelveBits := by
    have := l.i.isLt
    simp only [State.launch]
    bv_omega
  pcBounded := by simp [State.launch, Config.romBase]
  stackWithinDepth := Nat.zero_le _
  returnAddressesBounded := fun _ hw => nomatch hw
  gridSized := Grid.hasSize_ofSize _ _ _
  waitsAtItsInstruction := fun _ hm => nomatch hm
  neverCapacityExceeded := fun _ _ hm => nomatch hm
  configValid := h

/-- A tick changes the timers only, which the invariant does not name. -/
theorem State.Inv.tick {s : State} (h : s.Inv) : s.tick.Inv := { h with }

/-- A change of the pressed set changes nothing the invariant names. -/
theorem State.Inv.setKeys {s : State} (h : s.Inv) (p : Vector Bool 16) : (s.setKeys p).Inv := { h with }

/-- A `step()` call marks the session as started and leaves the machine the step leaves. -/
theorem Session.call_step {n : Session} {t : State} (h : step n.core = .next t) :
    n.call .step = (⟨t, true⟩, stepReply t.mode) := by simp only [Session.call, h]

/-- Every host call that creates no ill-formed machine keeps the session's invariant. -/
theorem Session.Inv.call {n : Session} (h : n.Inv) {c : HostCall} (hc : c.valid = true) : (n.call c).1.Inv := by
  cases c with
  | load bytes offset =>
    cases hst : n.started with
    | true => simpa only [Session.call, hst, if_true] using h
    | false =>
      have hm := h.freshRuns hst
      rcases n.core.load_cases bytes offset with ⟨hb, hl⟩ | ⟨_, hl⟩
      · simp only [Session.call, hst, hl]
        exact ⟨(h.core.data.writeList hb).inv_of_running h.core.pcBounded hm, fun _ => hm⟩
      · simpa [Session.call, hst, hl] using h
  | step =>
    obtain ⟨t, ht⟩ := step_answers n.core
    rw [Session.call_step ht]
    exact ⟨h.core.step ht, fun hf => nomatch hf⟩
  | tick => exact ⟨h.core.tick, h.freshRuns⟩
  | input p => exact ⟨h.core.setKeys p, h.freshRuns⟩
  | restart cfg l => exact ⟨State.launch_inv l hc, fun _ => rfl⟩

/-- Settles O9, by induction on the list of calls. -/
theorem hostCallsKeepTheInvariant : Obligations.HostCallsKeepTheInvariant := by
  intro calls
  induction calls with
  | nil => exact fun n h _ => h
  | cons c rest ih =>
    intro n h hv
    obtain ⟨hc, hrest⟩ := List.forall_mem_cons.mp hv
    exact ih _ (h.call hc) hrest

/-! ## One step in each mode (10_state.md R37 to R39) -/

/-- Settles O10: below the capacity the fetch gives the word at `PC`, which decodes to the instruction. -/
theorem stepRunsTheDecodedInstruction : Obligations.StepRunsTheDecodedInstruction := by
  intro s i hm hpc hd
  refine ⟨i.wellFormed_eq_true, ?_⟩
  rcases s.fetch_cases with ⟨_, hf⟩ | ⟨_, hle, _⟩ | ⟨hle, _⟩
  · rw [step_running hm, stepRunning_of_decode hf hd]
  · omega
  · omega

/-- Settles O12: the three cases of the fetch. -/
theorem fetchPastMemoryRaisesOutOfBounds : Obligations.FetchPastMemoryRaisesOutOfBounds := by
  intro s hm
  rw [step_running hm]
  rcases s.fetch_cases with ⟨hpc, hf⟩ | ⟨hpc, hle, hf⟩ | ⟨hle, hf⟩
  · exact ⟨fun _ => by omega, fun _ _ => by omega, fun _ => ⟨_, hf, composeWord_toNat _ _⟩⟩
  · exact ⟨fun _ => by omega, fun _ _ => stepRunning_of_fetch_error hf, fun _ => by omega⟩
  · exact ⟨fun _ => stepRunning_of_fetch_error hf, fun _ _ => by omega, fun _ => by omega⟩

/-- Consuming a key takes it, and only it, out of the pressed set, and only where the configuration says so
(00_scope.md R14). -/
theorem State.consumeKey_keys (k j : Key) (s : State) :
    (s.consumeKey k).keys[j.val] = if s.config.consumesKey = true ∧ j = k then false else s.keys[j.val] := by
  unfold State.consumeKey
  split
  · next hc =>
    simp only [State.setKeys_keys, Vector.getElem_set, hc, true_and, Fin.ext_iff, eq_comm]
  · next hc => simp [hc]

/-- The register of a key wait holds the number of the key taken. -/
theorem State.takeKey_reg (x : Reg) (k : Key) (s : State) : ((s.takeKey x k).reg x).toNat = k.val := by
  rw [State.takeKey, State.consumeKey_keeps k _ (.reg x) (by simp), State.setReg_reg_self, keyByte, BitVec.toNat_ofNat]
  omega

/-- The end of a key wait writes the register, `PC`, the mode and the pressed set (10_state.md R38). -/
theorem State.endWait_keeps (x : Reg) (k : Key) (s : State) :
    KeepsAllBut (Parts [.reg x, .pc, .mode, .keys]) s ((s.takeKey x k).advancePc.setMode .running) :=
  (((s.takeKey_keeps x k).mono (by simp +contextual)).advancePc (by simp)).trans
    ((State.setMode_keeps _ _).of_single (by simp))

/-- Settles O14: the lowest pressed key decides between the two cases of the wait. -/
theorem stepWhileAwaitingAKey : Obligations.StepWhileAwaitingAKey := by
  intro s x hm
  rw [step_awaiting hm]
  constructor
  · exact fun hnone => stepAwaiting_none x (State.lowestKey_eq_none.mpr hnone)
  · intro k hk hlow
    refine ⟨_, stepAwaiting_some x (State.lowestKey_eq_some.mpr ⟨hk, hlow⟩), s.takeKey_reg x k, ?_, rfl,
      fun j => State.consumeKey_keys k j _, s.endWait_keeps x k⟩
    rw [State.setMode_pc, State.advancePc_pc, s.takeKey_keeps x k .pc (by simp)]

/-- Settles O15: the step leaves the state, whose mode is what is reported (log 9). -/
theorem stepWhileFaultedChangesNothing : Obligations.StepWhileFaultedChangesNothing := by
  intro s e started hm
  have hs := step_faulted hm
  refine ⟨hs, by simp only [State.reported, hm], ?_⟩
  rw [Session.call_step (n := ⟨s, started⟩) hs, hm]
  rfl

/-- Settles O16: an error is a next state too (log 9). -/
theorem everyInstructionAnswersANextState : Obligations.EveryInstructionAnswersANextState :=
  ⟨exec_answers, step_answers⟩

/-- Settles O19: of the ways a running step can end, only `Fx0A` with no key pressed leaves a key wait. -/
theorem onlyTheKeyWaitSuspends : Obligations.OnlyTheKeyWaitSuspends := by
  intro s t x hm hs
  constructor
  · intro ht
    cases step_cases hs with
    | fetchFails | unknown => exact nomatch ht
    | runs op i _ _ hf hd he =>
      rcases exec_mode_cases he with ⟨e, rfl, _⟩ | ⟨y, rfl, hk, rfl⟩ | hmode
      · exact nomatch ht
      · cases ht
        rw [encode_of_decode hd]
        exact ⟨hf, State.lowestKey_eq_none.mp hk⟩
      · exact nomatch hm.symm.trans (hmode.symm.trans ht)
    | waits y hm' | waitEnds y k hm' | faulted e hm' => exact nomatch hm.symm.trans hm'
  · rintro ⟨hf, hk⟩
    rw [step_running hm, stepRunning_of_decode hf (decode_encode _)] at hs
    rcases exec_ldVxK s x with ⟨_, he⟩ | ⟨k, hk', _⟩
    · cases he.symm.trans hs
      rfl
    · exact nomatch (State.lowestKey_eq_none.mpr hk).symm.trans hk'

/-! ## What instructions and calls leave unchanged -/

/-- Settles O21 by the frame of every instruction, `exec_keeps`. -/
theorem everyInstructionWritesOnlyItsParts : Obligations.EveryInstructionWritesOnlyItsParts := fun _ _ _ => exec_keeps

/-- No instruction writes the configuration (10_state.md R31). -/
theorem not_mayWrite_config (i : Instr) (s : State) : ¬i.mayWrite s .config := by
  cases i <;> simp [Instr.mayWrite]

theorem step_config {s t : State} (h : step s = .next t) : t.config = s.config := by
  cases step_cases h with
  | fetchFails | unknown | waits | faulted => rfl
  | runs op i _ _ _ _ he => exact exec_keeps he .config (not_mayWrite_config i s)
  | waitEnds x k => exact s.endWait_keeps x k .config (by simp)

theorem Session.call_config {n : Session} {c : HostCall} (hc : c.keepsMachine = true) :
    (n.call c).1.core.config = n.core.config := by
  cases c with
  | load bytes offset =>
    cases hst : n.started with
    | true => simp [Session.call, hst]
    | false => rcases n.core.load_cases bytes offset with ⟨_, hl⟩ | ⟨_, hl⟩ <;> simp [Session.call, hst, hl]
  | step =>
    obtain ⟨t, ht⟩ := step_answers n.core
    rw [Session.call_step ht]
    exact step_config ht
  | tick | input => rfl
  | restart => exact nomatch hc

/-- Settles O20, by induction on the list of calls. -/
theorem configurationIsFixedForTheRun : Obligations.ConfigurationIsFixedForTheRun := by
  intro calls
  induction calls with
  | nil => exact fun _ _ => rfl
  | cons c rest ih =>
    intro n hk
    obtain ⟨hc, hrest⟩ := List.forall_mem_cons.mp hk
    exact (ih _ hrest).trans (Session.call_config hc)

/-! ## The flag (10_state.md R24, R30) -/

theorem boolByte_bit (p : Bool) : boolByte p = 0#8 ∨ boolByte p = 1#8 := by cases p <;> simp [boolByte]

theorem shiftedOutRight_bit (b : Byte) : shiftedOutRight b = 0#8 ∨ shiftedOutRight b = 1#8 := by
  unfold shiftedOutRight
  rw [BitVec.and_one_eq_setWidth_ofBool_getLsbD]
  cases b.getLsbD 0 <;> simp

/-- The flag is written last, so VF is the flag also where the result register is VF. -/
theorem State.setResultAndFlag_vf_bit (x : Reg) (a : Byte) {f : Byte} (hf : f = 0#8 ∨ f = 1#8) (s : State) :
    (s.setResultAndFlag x a f).reg VF = 0#8 ∨ (s.setResultAndFlag x a f).reg VF = 1#8 := by
  rwa [State.setResultAndFlag, State.setReg_reg_self]

theorem State.drawSprite_vf_bit (x y : Reg) (rows : List Byte) (s : State) :
    (s.drawSprite x y rows).reg VF = 0#8 ∨ (s.drawSprite x y rows).reg VF = 1#8 := by
  simpa [State.drawSprite] using
    State.flipAll_vf (spritePixels s.config (s.originX x) (s.originY y) rows) (s.setReg VF 0#8)

/-- Settles O46: five flags are one bit by their definitions, that of a sprite is 0 until a collision sets it to 1. -/
theorem flagInstructionsLeaveABitInVf : Obligations.FlagInstructionsLeaveABitInVf := by
  intro x y n i s t hi he hmode hm
  simp only [List.mem_cons, List.not_mem_nil, or_false] at hi
  rcases hi with rfl | rfl | rfl | rfl | rfl | rfl
  · cases he; exact s.setResultAndFlag_vf_bit x _ (boolByte_bit _)
  · cases he; exact s.setResultAndFlag_vf_bit x _ (boolByte_bit _)
  · cases he; exact s.setResultAndFlag_vf_bit x _ (shiftedOutRight_bit _)
  · cases he; exact s.setResultAndFlag_vf_bit x _ (boolByte_bit _)
  · cases he; exact s.setResultAndFlag_vf_bit x _ (boolByte_bit _)
  · rcases exec_drw s x y n with ⟨_, h'⟩ | ⟨_, _, h'⟩ <;> cases h'.symm.trans he
    · exact s.drawSprite_vf_bit x y _
    · exact nomatch hmode.trans hm

/-! ## The parts instructions do not read (10_state.md R33, R34) -/

/-- The pressed set and the sound timer changed, nothing else: `State.setKeys` and `State.setSound` are its two halves
(`State.setKeys_eq_mapInputs`, `State.setSound_eq_mapInputs`). -/
def State.mapInputs (f : Vector Bool 16 → Vector Bool 16) (g : Byte → Byte) (s : State) : State :=
  { s with keys := f s.keys, sound := g s.sound }

theorem State.setKeys_eq_mapInputs (p : Vector Bool 16) : State.setKeys p = State.mapInputs (fun _ => p) id := rfl

theorem State.setSound_eq_mapInputs (b : Byte) : State.setSound b = State.mapInputs id fun _ => b := rfl

section
variable (f : Vector Bool 16 → Vector Bool 16) (g : Byte → Byte)

@[simp] theorem State.mapInputs_reg (r : Reg) (s : State) : (s.mapInputs f g).reg r = s.reg r := rfl
@[simp] theorem State.mapInputs_regsUpTo (x : Reg) (s : State) : (s.mapInputs f g).regsUpTo x = s.regsUpTo x := rfl
@[simp] theorem State.mapInputs_indexAddr (k : Nat) (s : State) : (s.mapInputs f g).indexAddr k = s.indexAddr k := rfl
@[simp] theorem State.mapInputs_returnAddress (s : State) : (s.mapInputs f g).returnAddress = s.returnAddress := rfl
@[simp] theorem State.mapInputs_stack (s : State) : (s.mapInputs f g).stack = s.stack := rfl
@[simp] theorem State.mapInputs_mem (s : State) : (s.mapInputs f g).mem = s.mem := rfl
@[simp] theorem State.mapInputs_config (s : State) : (s.mapInputs f g).config = s.config := rfl

@[simp] theorem State.push_mapInputs (w : Word) (s : State) :
    (s.mapInputs f g).push w = (s.push w).map (State.mapInputs f g) := by
  rw [State.push, State.push, apply_ite (Except.map (State.mapInputs f g))]
  rfl

@[simp] theorem State.pop_mapInputs (s : State) :
    (s.mapInputs f g).pop = s.pop.map fun q => (q.1, q.2.mapInputs f g) := by
  simp only [State.pop, State.mapInputs_stack]
  cases s.stack <;> rfl

@[simp] theorem State.readRange_mapInputs (base n : Nat) (s : State) :
    (s.mapInputs f g).readRange base n = s.readRange base n := rfl

@[simp] theorem State.writeRange_mapInputs (base : Nat) (bytes : List Byte) (s : State) :
    (s.mapInputs f g).writeRange base bytes = (s.writeRange base bytes).map (State.mapInputs f g) := by
  simp only [State.writeRange, State.mapInputs_config, State.mapInputs_mem]
  cases checkRange base bytes.length s.config.memCapacity <;> rfl

theorem State.flipAll_mapInputs (ps : List (Nat × Nat)) (s : State) :
    State.flipAll ps (s.mapInputs f g) = (State.flipAll ps s).mapInputs f g := by
  induction ps generalizing s with
  | nil => rfl
  | cons p ps ih =>
    obtain ⟨x, y⟩ := p
    rw [State.flipAll_cons, State.flipAll_cons, ← ih, apply_ite (State.mapInputs f g)]
    rfl

@[simp] theorem State.setRegs_mapInputs (k : Nat) (bs : List Byte) (s : State) :
    State.setRegs k bs (s.mapInputs f g) = (State.setRegs k bs s).mapInputs f g := by
  induction bs generalizing k s with
  | nil => rfl
  | cons b bs ih =>
    unfold State.setRegs
    split
    · next hk => exact ih (k + 1) (s.setReg ⟨k, hk⟩ b)
    · rfl

@[simp] theorem State.drawSprite_mapInputs (x y : Reg) (rows : List Byte) (s : State) :
    (s.mapInputs f g).drawSprite x y rows = (s.drawSprite x y rows).mapInputs f g :=
  congrArg State.displayPresent (State.flipAll_mapInputs f g _ (s.setReg VF 0#8))

theorem finish_skipIf_mapInputs (c : Bool) (s : State) :
    finish (s.mapInputs f g) ((s.mapInputs f g).skipIf c) = mapNext (State.mapInputs f g) (finish s (s.skipIf c)) := by
  cases c <;> rfl

/-- An instruction that neither reads the pressed set nor writes the sound timer does the same whatever they hold. -/
theorem exec_mapInputs {i : Instr} (hk : i.readsKeys = false) (hs : ∀ x, i ≠ .ldStVx x) (s : State) :
    exec i (s.mapInputs f g) = mapNext (State.mapInputs f g) (exec i s) := by
  cases i with
  | skp | sknp | ldVxK => exact nomatch hk
  | ldStVx x => exact absurd rfl (hs x)
  | seByte | sneByte | seReg | sneReg => exact finish_skipIf_mapInputs f g _ s
  | ret =>
    simp only [exec, execRet, State.pop_mapInputs]
    cases s.pop <;> rfl
  | call nnn =>
    simp only [exec, execCall, State.mapInputs_returnAddress, State.push_mapInputs]
    cases s.push s.returnAddress <;> rfl
  | drw x y n =>
    simp only [exec, execDrw, State.mapInputs_indexAddr, State.readRange_mapInputs, State.drawSprite_mapInputs]
    cases s.readRange (s.indexAddr 0) n.toNat <;> rfl
  | ldB x =>
    simp only [exec, execLdB, State.mapInputs_indexAddr, State.mapInputs_reg, State.writeRange_mapInputs]
    cases s.writeRange (s.indexAddr 0) (decimalDigits (s.reg x)) <;> rfl
  | stRegs x =>
    simp only [exec, execStRegs, State.mapInputs_indexAddr, State.mapInputs_regsUpTo, State.writeRange_mapInputs]
    cases s.writeRange (s.indexAddr 0) (s.regsUpTo x) <;> rfl
  | ldRegs x =>
    simp only [exec, execLdRegs, State.mapInputs_indexAddr, State.readRange_mapInputs, State.setRegs_mapInputs]
    cases s.readRange (s.indexAddr 0) (x.val + 1) <;> rfl
  | _ => rfl

end

/-- Settles O23. `Fx18` writes the sound timer and still reads no key. -/
theorem onlyKeyInstructionsReadThePressedSet : Obligations.OnlyKeyInstructionsReadThePressedSet := by
  intro i s p hk
  by_cases hs : ∃ x, i = .ldStVx x
  · obtain ⟨x, rfl⟩ := hs
    rfl
  · rw [State.setKeys_eq_mapInputs]
    exact exec_mapInputs _ _ hk (not_exists.mp hs) s

/-- The lowest pressed key does not depend on the sound timer. -/
theorem State.lowestKey_setSound (b : Byte) (s : State) : (s.setSound b).lowestKey = s.lowestKey := rfl

theorem State.takeKey_setSound (x : Reg) (k : Key) (b : Byte) (s : State) :
    (s.setSound b).takeKey x k = (s.takeKey x k).setSound b := by
  rw [State.takeKey, State.takeKey, State.consumeKey, State.consumeKey, apply_ite (State.setSound b)]
  rfl

/-- Every instruction but `Fx18`, which overwrites it, hands the sound timer through. -/
theorem exec_setSound {i : Instr} (hs : ∀ x, i ≠ .ldStVx x) (b : Byte) (s : State) :
    exec i (s.setSound b) = mapNext (State.setSound b) (exec i s) := by
  cases i with
  | skp | sknp => exact finish_skipIf_mapInputs id (fun _ => b) _ s
  | ldVxK x =>
    simp only [exec, execLdVxK, State.lowestKey_setSound, State.takeKey_setSound]
    cases s.lowestKey <;> rfl
  | _ =>
    rw [State.setSound_eq_mapInputs]
    exact exec_mapInputs _ _ rfl hs s

/-- Settles O24: `Fx18` leaves the same state whatever the sound timer held, every other instruction keeps it apart. -/
theorem noInstructionReadsTheSoundTimer : Obligations.NoInstructionReadsTheSoundTimer := by
  intro i s t b h
  by_cases hs : ∃ x, i = .ldStVx x
  · obtain ⟨x, rfl⟩ := hs
    exact ⟨t, h, KeepsAllBut.refl _ t⟩
  · refine ⟨t.setSound b, ?_, (t.setSound_keeps b).of_single (by simp)⟩
    rw [exec_setSound (not_exists.mp hs), h]
    rfl

end Sys2Proof.Machine

namespace Sys2Proof

/-! ## What is stored is fetched (20_memory.md R55, R65) -/

/-- The instruction of a table word is the one its word decodes to (30_encoding.md R70). -/
theorem decode_of_decodeTableWord {nbits w : Nat} {i : Instr} (h : decodeTableWord nbits w = some i) :
    decode (tableWord nbits w) = .ok i := by
  simp only [decodeTableWord, decodeBytes, composeWord_bytes] at h
  cases hd : decode (tableWord nbits w) with
  | error e => simp [hd] at h
  | ok j => simpa [hd] using h

end Sys2Proof

namespace Sys2Proof.Machine

/-- Within the capacity the fetch gives the word of the bytes at `PC` and `PC + 1` (20_memory.md R55). -/
theorem State.fetch_of_lt {s : State} (h : s.pc.toNat + 1 < s.config.memCapacity) :
    s.fetch = .ok (composeWord (s.mem.read s.pc.toNat) (s.mem.read (s.pc.toNat + 1))) := by
  rcases s.fetch_cases with ⟨_, hf⟩ | ⟨_, hle, _⟩ | ⟨hle, _⟩
  · exact hf
  · omega
  · omega

/-- The fetch from an address `PC` can hold, within the capacity. -/
theorem State.setPc_fetch {s : State} {a : Nat} (ha : a < 2 ^ 16) (h : a + 1 < s.config.memCapacity) :
    (s.setPc (BitVec.ofNat 16 a)).fetch = .ok (composeWord (s.mem.read a) (s.mem.read (a + 1))) := by
  have hpc : (s.setPc (BitVec.ofNat 16 a)).pc.toNat = a := Nat.mod_eq_of_lt ha
  rw [State.fetch_of_lt (by rw [hpc]; exact h), hpc, State.setPc_mem]

/-- A word placed in a canonical memory is what the next fetch reads (20_memory.md R55, R65). -/
theorem State.placeWord_fetch (op : Word) {s : State} (hm : s.mem.wf = true)
    (hpc : s.pc.toNat + 1 < s.config.memCapacity) : (s.placeWord op).fetch = .ok op := by
  have hhigh : (s.placeWord op).mem.read s.pc.toNat = highByte op := by
    rw [State.placeWord, State.setMem_mem, Memory.read_write_ne _ (by omega), Memory.read_write_same _ hm]
  have hlow : (s.placeWord op).mem.read (s.pc.toNat + 1) = lowByte op :=
    Memory.read_write_same _ (Memory.write_wf _ _ hm)
  calc (s.placeWord op).fetch
      = .ok (composeWord ((s.placeWord op).mem.read s.pc.toNat) ((s.placeWord op).mem.read (s.pc.toNat + 1))) :=
        State.fetch_of_lt hpc
    _ = .ok op := by rw [hhigh, hlow, composeWord_bytes]

/-- Settles O11: the mode is `Running`, and the fetch reads the word just placed. -/
theorem placedInstructionIsTheNextToRun : Obligations.PlacedInstructionIsTheNextToRun := by
  intro s nbits w i hm hpc hd
  have hf : (s.withFetchWord nbits w).fetch = .ok (tableWord nbits w) := State.placeWord_fetch _ hm hpc
  rw [step_running rfl, stepRunning_of_decode hf (decode_of_decodeTableWord hd)]

/-- Settles O27: both bytes the fetch reads are among those just stored. -/
theorem storedBytesAreFetched : Obligations.StoredBytesAreFetched := by
  intro s x hm hx
  have stored (r : Reg) (hr : r.val ≤ x.val) :
      Memory.read (s.mem.writeList s.i.toNat (s.regsUpTo x)) (s.i.toNat + r.val) = s.reg r := by
    rw [Memory.read_writeList_at (by rw [State.regsUpTo_length]; omega) hm, State.regsUpTo_getElem]
  rcases exec_stRegs s x with ⟨_, he⟩ | ⟨a, ha, _⟩
  · refine ⟨_, he, fun k j hj hk h16 => ?_⟩
    have hjx : j.val < x.val := hj
    have hcap : s.i.toNat + j.val + 1 < s.config.memCapacity := by omega
    rw [State.setPc_fetch h16, State.advancePc_mem, State.setMem_mem, stored j (by omega), Nat.add_assoc, ← hk,
      stored k (by omega)]
    exact hcap
  · obtain ⟨k, hk, rfl, hle, _⟩ := checkRange_eq_some.mp ha
    omega

/-! ## The range check of the memory instructions (20_memory.md R54) -/

/-- The two ways an instruction that uses the `n` bytes from `I` on can end: its range is within the capacity and the
mode is kept, or `CheckRange` fails and its address is raised with no other effect (20_memory.md R54). -/
def RangeChecked (i : Instr) (n : Nat) (s : State) : Prop :=
  ((n = 0 ∨ s.i.toNat + n ≤ s.config.memCapacity) ∧ ∃ t, exec i s = .next t ∧ t.mode = s.mode) ∨
    ∃ a, checkRange s.i.toNat n s.config.memCapacity = some a ∧ exec i s = .next (s.raise (.outOfBounds a))

theorem rangeChecked_drw (x y : Reg) (n : Nibble) (s : State) : RangeChecked (.drw x y n) n.toNat s :=
  (exec_drw s x y n).imp_left fun ⟨hn, he⟩ => ⟨hn, _, he, s.drawSprite_keeps x y _ .mode (by simp)⟩

theorem rangeChecked_ldB (x : Reg) (s : State) : RangeChecked (.ldB x) 3 s :=
  (exec_ldB s x).imp_left fun ⟨hn, he⟩ => ⟨Or.inr hn, _, he, rfl⟩

theorem rangeChecked_stRegs (x : Reg) (s : State) : RangeChecked (.stRegs x) (x.val + 1) s :=
  (exec_stRegs s x).imp_left fun ⟨hn, he⟩ => ⟨Or.inr hn, _, he, rfl⟩

theorem rangeChecked_ldRegs (x : Reg) (s : State) : RangeChecked (.ldRegs x) (x.val + 1) s :=
  (exec_ldRegs s x).imp_left fun ⟨hn, he⟩ => ⟨Or.inr hn, _, he, State.setRegs_keeps 0 _ s .mode (by simp)⟩

/-- The lowest address of the range at or past the capacity is the one raised. -/
theorem RangeChecked.raises_lowest {i : Instr} {n k : Nat} {s : State} (h : RangeChecked i n s) (hk : k < n)
    (hle : s.config.memCapacity ≤ s.i.toNat + k) (hlow : ∀ j < k, s.i.toNat + j < s.config.memCapacity) :
    exec i s = .next (s.raise (.outOfBounds (s.i.toNat + k))) := by
  have hc := checkRange_eq_some.mpr ⟨k, hk, rfl, hle, hlow⟩
  rcases h with ⟨hn, _⟩ | ⟨a, ha, he⟩
  · omega
  · cases ha.symm.trans hc
    exact he

/-- With its whole range within the capacity the instruction keeps the mode. -/
theorem RangeChecked.keeps_mode {i : Instr} {n : Nat} {s : State} (h : RangeChecked i n s)
    (hin : ∀ k < n, s.i.toNat + k < s.config.memCapacity) : ∃ t, exec i s = .next t ∧ t.mode = s.mode := by
  rcases h with ⟨_, ht⟩ | ⟨a, ha, _⟩
  · exact ht
  · obtain ⟨k, hk, rfl, hle, _⟩ := checkRange_eq_some.mp ha
    exact absurd (hin k hk) (Nat.not_lt.mpr hle)

/-- Settles O33: each of the four memory instructions checks its range before any effect. -/
theorem memoryInstructionsCheckTheirRangeFirst : Obligations.MemoryInstructionsCheckTheirRangeFirst := by
  intro i n s hi
  have h : RangeChecked i n s := by
    rcases hi with ⟨x, y, c, rfl, rfl⟩ | ⟨x, rfl, rfl⟩ | ⟨x, rfl, rfl⟩ | ⟨x, rfl, rfl⟩
    · exact rangeChecked_drw x y c s
    · exact rangeChecked_ldB x s
    · exact rangeChecked_stRegs x s
    · exact rangeChecked_ldRegs x s
  exact ⟨fun _ => h.raises_lowest, h.keeps_mode⟩

/-! ## The host's load (20_memory.md R61, R62) -/

/-- Settles O56: the two answers of `load`; the bytes copied are read back. -/
theorem loadCopiesAllOrNothing : Obligations.LoadCopiesAllOrNothing := by
  intro bytes offset s
  rcases s.load_cases bytes offset with ⟨hle, hl⟩ | ⟨hlt, hl⟩
  · refine ⟨fun hlt => absurd hlt (Nat.not_lt.mpr hle), fun _ hm => ?_⟩
    refine ⟨_, ?_, ?_, s.setMem_writeList_keeps offset bytes⟩
    · simp [Session.call, hl]
    · exact fun k hk => Memory.read_writeList_at hk hm
  · refine ⟨fun _ => ?_, fun hle => absurd hlt (Nat.not_lt.mpr hle)⟩
    simp [Session.call, hl, Fault.reply]

/-- After the first step a load is refused and changes nothing (20_memory.md R62; log 12). -/
theorem Session.call_load_started {n : Session} (h : n.started = true) (bytes : List Byte) (offset : Nat) :
    n.call (.load bytes offset) = (n, .notAdmitted .loadAfterFirstStep) := by simp only [Session.call, h, if_true]

/-- Only a restart makes a session that has stepped a fresh one. -/
theorem Session.call_started {n : Session} {c : HostCall} (hc : c.keepsMachine = true) (h : n.started = true) :
    (n.call c).1.started = true := by
  cases c with
  | load bytes offset => rw [Session.call_load_started h]; exact h
  | step =>
    obtain ⟨t, ht⟩ := step_answers n.core
    rw [Session.call_step ht]
  | tick | input => exact h
  | restart => exact nomatch hc

theorem Session.run_started {calls : List HostCall} (hk : ∀ c ∈ calls, c.keepsMachine = true) {n : Session}
    (h : n.started = true) : (Session.run calls n).started = true := by
  induction calls generalizing n with
  | nil => exact h
  | cons c rest ih =>
    obtain ⟨hc, hrest⟩ := List.forall_mem_cons.mp hk
    exact ih hrest (Session.call_started hc h)

/-- Settles O57: the step marks the session as started, which every call but a restart keeps. -/
theorem loadIsAdmittedOnlyBeforeTheFirstStep : Obligations.LoadIsAdmittedOnlyBeforeTheFirstStep := by
  intro n calls bytes offset hk
  obtain ⟨t, ht⟩ := step_answers n.core
  have hstep : (n.call .step).1.started = true := by rw [Session.call_step ht]
  exact Session.call_load_started (Session.run_started hk hstep) bytes offset

end Sys2Proof.Machine

namespace Sys2Proof

/-! ## The opcode table (30_encoding.md R73, R75, R76) -/

/-- Settles O1: the bytes of an instruction compose to its word again. -/
theorem decodeReadsBackEveryEncoding : Obligations.DecodeReadsBackEveryEncoding := by
  intro i rest _
  refine ⟨decode_encode i, ?_⟩
  simp only [encodeBytes, List.cons_append, List.nil_append, decodeBytes, composeWord_bytes, decode_encode]

/-- Every instruction stands in a row of the table. -/
theorem Instr.row_mem_opcodeTable (i : Instr) : i.row ∈ opcodeTable := by
  cases i <;> simp [Instr.row, opcodeTable]

open Laws in
/-- The word of every instruction matches the instruction's own row (30_encoding.md R78). -/
theorem Instr.row_covers_encode : ∀ i : Instr, i.row.covers (encode i) = true
  | .cls => MatchesRow.cls
  | .ret => MatchesRow.ret
  | .jp nnn => MatchesRow.jp nnn
  | .call nnn => MatchesRow.call nnn
  | .seByte x nn => MatchesRow.seByte x nn
  | .sneByte x nn => MatchesRow.sneByte x nn
  | .seReg x y => MatchesRow.seReg x y
  | .ldByte x nn => MatchesRow.ldByte x nn
  | .addByte x nn => MatchesRow.addByte x nn
  | .ldReg x y => MatchesRow.ldReg x y
  | .orReg x y => MatchesRow.orReg x y
  | .andReg x y => MatchesRow.andReg x y
  | .xorReg x y => MatchesRow.xorReg x y
  | .addReg x y => MatchesRow.addReg x y
  | .subReg x y => MatchesRow.subReg x y
  | .shr x y => MatchesRow.shr x y
  | .subn x y => MatchesRow.subn x y
  | .shl x y => MatchesRow.shl x y
  | .sneReg x y => MatchesRow.sneReg x y
  | .ldI nnn => MatchesRow.ldI nnn
  | .jpV0 nnn => MatchesRow.jpV0 nnn
  | .rnd x nn => MatchesRow.rnd x nn
  | .drw x y n => MatchesRow.drw x y n
  | .skp x => MatchesRow.skp x
  | .sknp x => MatchesRow.sknp x
  | .ldVxDt x => MatchesRow.ldVxDt x
  | .ldVxK x => MatchesRow.ldVxK x
  | .ldDtVx x => MatchesRow.ldDtVx x
  | .ldStVx x => MatchesRow.ldStVx x
  | .addI x => MatchesRow.addI x
  | .ldF x => MatchesRow.ldF x
  | .ldB x => MatchesRow.ldB x
  | .stRegs x => MatchesRow.stRegs x
  | .ldRegs x => MatchesRow.ldRegs x

/-- Two different rows disagree on a bit that is literal in both. -/
theorem opcodeTable_disjoint :
    ∀ r ∈ opcodeTable, ∀ q ∈ opcodeTable, r.bits &&& q.mask = q.bits &&& r.mask → r = q := by decide

/-- At most one row covers a word. -/
theorem opcodeTable_unique {r q : OpcodeRow} {op : Word} (hr : r ∈ opcodeTable) (hq : q ∈ opcodeTable)
    (hcr : r.covers op = true) (hcq : q.covers op = true) : r = q := by
  rw [OpcodeRow.covers, beq_iff_eq] at hcr hcq
  refine opcodeTable_disjoint r hr q hq ?_
  calc r.bits &&& q.mask
      = op &&& r.mask &&& q.mask := by rw [hcr]
    _ = op &&& q.mask &&& r.mask := by rw [BitVec.and_assoc, BitVec.and_comm r.mask, BitVec.and_assoc]
    _ = q.bits &&& r.mask := by rw [hcq]

end Sys2Proof

namespace Sys2Proof.Machine

/-! ## Every row of the table decodes (30_encoding.md R73, R75, R76) -/

/-- Words that are the encoding of what `f` reads from them decode to it. -/
theorem decodesAs_of_encode {bits mask : Word} {f : Word → Instr}
    (h : ∀ op, op &&& mask = bits → encode (f op) = op) : DecodesAs bits mask f := fun op hop =>
  calc decode op = decode (encode (f op)) := by rw [h op hop]
    _ = .ok (f op) := decode_encode (f op)

/-- A row without operands. -/
theorem decodesAs_encode (i : Instr) : DecodesAs (encode i) 0xFFFF#16 fun _ => i :=
  decodesAs_of_encode fun _ h => h.symm.trans BitVec.and_allOnes

/-- A row of the shape `annn`. -/
theorem decodesAs_wordNNN (a : Nibble) {f : Word → Instr} (hf : ∀ op, encode (f op) = wordNNN a (fieldNNN op)) :
    DecodesAs (wordNNN a 0) 0xF000#16 f :=
  decodesAs_of_encode fun op h => (hf op).trans (wordNNN_eq (by rw [← fieldA_mask_F000, h, fieldA_wordNNN]))

/-- A row of the shape `axnn`, its first nibble literal. -/
theorem decodesAs_wordXNN (a : Nibble) {f : Word → Instr}
    (hf : ∀ op, encode (f op) = wordXNN a (fieldX op) (fieldNN op)) : DecodesAs (wordXNN a 0 0) 0xF000#16 f :=
  decodesAs_of_encode fun op h => (hf op).trans (wordXNN_eq (by rw [← fieldA_mask_F000, h, fieldA_wordXNN]) rfl)

/-- A row of the shape `axnn`, its first nibble and its low byte literal. -/
theorem decodesAs_wordXNN_low (a : Nibble) (nn : Byte) {f : Word → Instr}
    (hf : ∀ op, encode (f op) = wordXNN a (fieldX op) nn) : DecodesAs (wordXNN a 0 nn) 0xF0FF#16 f :=
  decodesAs_of_encode fun op h => by
    obtain ⟨ha, hn⟩ := fields_mask_F0FF op
    rw [h] at ha hn
    exact (hf op).trans (wordXNN_eq (ha.symm.trans (fieldA_wordXNN a 0 nn)) (hn.symm.trans (fieldNN_wordXNN a 0 nn)))

/-- A row of the shape `axyd`, its first nibble literal. -/
theorem decodesAs_wordXYN (a : Nibble) {f : Word → Instr}
    (hf : ∀ op, encode (f op) = wordXYN a (fieldX op) (fieldY op) (fieldN op)) :
    DecodesAs (wordXYN a 0 0 0) 0xF000#16 f :=
  decodesAs_of_encode fun op h => (hf op).trans (wordXYN_eq (by rw [← fieldA_mask_F000, h, fieldA_wordXYN]) rfl)

/-- A row of the shape `axyd`, its first and its last nibble literal. -/
theorem decodesAs_wordXYN_low (a d : Nibble) {f : Word → Instr}
    (hf : ∀ op, encode (f op) = wordXYN a (fieldX op) (fieldY op) d) : DecodesAs (wordXYN a 0 0 d) 0xF00F#16 f :=
  decodesAs_of_encode fun op h => by
    obtain ⟨ha, hn⟩ := fields_mask_F00F op
    rw [h] at ha hn
    exact (hf op).trans (wordXYN_eq (ha.symm.trans (fieldA_wordXYN a 0 0 d)) (hn.symm.trans (fieldN_wordXYN a 0 0 d)))

theorem decodesAs_cls : DecodesAs 0x00E0 0xFFFF fun _ => .cls := decodesAs_encode .cls

theorem decodesAs_ret : DecodesAs 0x00EE 0xFFFF fun _ => .ret := decodesAs_encode .ret

theorem decodesAs_jp : DecodesAs 0x1000 0xF000 fun op => .jp (fieldNNN op) :=
  decodesAs_wordNNN 0x1 fun _ => rfl

theorem decodesAs_call : DecodesAs 0x2000 0xF000 fun op => .call (fieldNNN op) :=
  decodesAs_wordNNN 0x2 fun _ => rfl

theorem decodesAs_seByte : DecodesAs 0x3000 0xF000 fun op => .seByte (fieldX op) (fieldNN op) :=
  decodesAs_wordXNN 0x3 fun _ => rfl

theorem decodesAs_sneByte : DecodesAs 0x4000 0xF000 fun op => .sneByte (fieldX op) (fieldNN op) :=
  decodesAs_wordXNN 0x4 fun _ => rfl

theorem decodesAs_seReg : DecodesAs 0x5000 0xF00F fun op => .seReg (fieldX op) (fieldY op) :=
  decodesAs_wordXYN_low 0x5 0x0 fun _ => rfl

theorem decodesAs_ldByte : DecodesAs 0x6000 0xF000 fun op => .ldByte (fieldX op) (fieldNN op) :=
  decodesAs_wordXNN 0x6 fun _ => rfl

theorem decodesAs_addByte : DecodesAs 0x7000 0xF000 fun op => .addByte (fieldX op) (fieldNN op) :=
  decodesAs_wordXNN 0x7 fun _ => rfl

theorem decodesAs_ldReg : DecodesAs 0x8000 0xF00F fun op => .ldReg (fieldX op) (fieldY op) :=
  decodesAs_wordXYN_low 0x8 0x0 fun _ => rfl

theorem decodesAs_orReg : DecodesAs 0x8001 0xF00F fun op => .orReg (fieldX op) (fieldY op) :=
  decodesAs_wordXYN_low 0x8 0x1 fun _ => rfl

theorem decodesAs_andReg : DecodesAs 0x8002 0xF00F fun op => .andReg (fieldX op) (fieldY op) :=
  decodesAs_wordXYN_low 0x8 0x2 fun _ => rfl

theorem decodesAs_xorReg : DecodesAs 0x8003 0xF00F fun op => .xorReg (fieldX op) (fieldY op) :=
  decodesAs_wordXYN_low 0x8 0x3 fun _ => rfl

theorem decodesAs_addReg : DecodesAs 0x8004 0xF00F fun op => .addReg (fieldX op) (fieldY op) :=
  decodesAs_wordXYN_low 0x8 0x4 fun _ => rfl

theorem decodesAs_subReg : DecodesAs 0x8005 0xF00F fun op => .subReg (fieldX op) (fieldY op) :=
  decodesAs_wordXYN_low 0x8 0x5 fun _ => rfl

theorem decodesAs_shr : DecodesAs 0x8006 0xF00F fun op => .shr (fieldX op) (fieldY op) :=
  decodesAs_wordXYN_low 0x8 0x6 fun _ => rfl

theorem decodesAs_subn : DecodesAs 0x8007 0xF00F fun op => .subn (fieldX op) (fieldY op) :=
  decodesAs_wordXYN_low 0x8 0x7 fun _ => rfl

theorem decodesAs_shl : DecodesAs 0x800E 0xF00F fun op => .shl (fieldX op) (fieldY op) :=
  decodesAs_wordXYN_low 0x8 0xE fun _ => rfl

theorem decodesAs_sneReg : DecodesAs 0x9000 0xF00F fun op => .sneReg (fieldX op) (fieldY op) :=
  decodesAs_wordXYN_low 0x9 0x0 fun _ => rfl

theorem decodesAs_ldI : DecodesAs 0xA000 0xF000 fun op => .ldI (fieldNNN op) :=
  decodesAs_wordNNN 0xA fun _ => rfl

theorem decodesAs_jpV0 : DecodesAs 0xB000 0xF000 fun op => .jpV0 (fieldNNN op) :=
  decodesAs_wordNNN 0xB fun _ => rfl

theorem decodesAs_rnd : DecodesAs 0xC000 0xF000 fun op => .rnd (fieldX op) (fieldNN op) :=
  decodesAs_wordXNN 0xC fun _ => rfl

theorem decodesAs_drw : DecodesAs 0xD000 0xF000 fun op => .drw (fieldX op) (fieldY op) (fieldN op) :=
  decodesAs_wordXYN 0xD fun _ => rfl

theorem decodesAs_skp : DecodesAs 0xE09E 0xF0FF fun op => .skp (fieldX op) :=
  decodesAs_wordXNN_low 0xE 0x9E fun _ => rfl

theorem decodesAs_sknp : DecodesAs 0xE0A1 0xF0FF fun op => .sknp (fieldX op) :=
  decodesAs_wordXNN_low 0xE 0xA1 fun _ => rfl

theorem decodesAs_ldVxDt : DecodesAs 0xF007 0xF0FF fun op => .ldVxDt (fieldX op) :=
  decodesAs_wordXNN_low 0xF 0x07 fun _ => rfl

theorem decodesAs_ldVxK : DecodesAs 0xF00A 0xF0FF fun op => .ldVxK (fieldX op) :=
  decodesAs_wordXNN_low 0xF 0x0A fun _ => rfl

theorem decodesAs_ldDtVx : DecodesAs 0xF015 0xF0FF fun op => .ldDtVx (fieldX op) :=
  decodesAs_wordXNN_low 0xF 0x15 fun _ => rfl

theorem decodesAs_ldStVx : DecodesAs 0xF018 0xF0FF fun op => .ldStVx (fieldX op) :=
  decodesAs_wordXNN_low 0xF 0x18 fun _ => rfl

theorem decodesAs_addI : DecodesAs 0xF01E 0xF0FF fun op => .addI (fieldX op) :=
  decodesAs_wordXNN_low 0xF 0x1E fun _ => rfl

theorem decodesAs_ldF : DecodesAs 0xF029 0xF0FF fun op => .ldF (fieldX op) :=
  decodesAs_wordXNN_low 0xF 0x29 fun _ => rfl

theorem decodesAs_ldB : DecodesAs 0xF033 0xF0FF fun op => .ldB (fieldX op) :=
  decodesAs_wordXNN_low 0xF 0x33 fun _ => rfl

theorem decodesAs_stRegs : DecodesAs 0xF055 0xF0FF fun op => .stRegs (fieldX op) :=
  decodesAs_wordXNN_low 0xF 0x55 fun _ => rfl

theorem decodesAs_ldRegs : DecodesAs 0xF065 0xF0FF fun op => .ldRegs (fieldX op) :=
  decodesAs_wordXNN_low 0xF 0x65 fun _ => rfl

/-- The decoder answers an instruction for every row of the table. -/
theorem opcodeTable_decodes : ∀ r ∈ opcodeTable, ∃ f, DecodesAs r.bits r.mask f := by
  simp only [opcodeTable, List.cons_append, List.nil_append, List.forall_mem_cons]
  exact ⟨⟨_, decodesAs_cls⟩, ⟨_, decodesAs_ret⟩, ⟨_, decodesAs_jp⟩, ⟨_, decodesAs_call⟩, ⟨_, decodesAs_seByte⟩,
    ⟨_, decodesAs_sneByte⟩, ⟨_, decodesAs_seReg⟩, ⟨_, decodesAs_ldByte⟩, ⟨_, decodesAs_addByte⟩,
    ⟨_, decodesAs_ldReg⟩, ⟨_, decodesAs_orReg⟩, ⟨_, decodesAs_andReg⟩, ⟨_, decodesAs_xorReg⟩, ⟨_, decodesAs_addReg⟩,
    ⟨_, decodesAs_subReg⟩, ⟨_, decodesAs_shr⟩, ⟨_, decodesAs_subn⟩, ⟨_, decodesAs_shl⟩, ⟨_, decodesAs_sneReg⟩,
    ⟨_, decodesAs_ldI⟩, ⟨_, decodesAs_jpV0⟩, ⟨_, decodesAs_rnd⟩, ⟨_, decodesAs_drw⟩, ⟨_, decodesAs_skp⟩,
    ⟨_, decodesAs_sknp⟩, ⟨_, decodesAs_ldVxDt⟩, ⟨_, decodesAs_ldVxK⟩, ⟨_, decodesAs_ldDtVx⟩, ⟨_, decodesAs_ldStVx⟩,
    ⟨_, decodesAs_addI⟩, ⟨_, decodesAs_ldF⟩, ⟨_, decodesAs_ldB⟩, ⟨_, decodesAs_stRegs⟩, ⟨_, decodesAs_ldRegs⟩,
    fun _ h => nomatch h⟩

/-- A word that a row covers is an instruction. -/
theorem decode_of_covers {r : OpcodeRow} {op : Word} (hr : r ∈ opcodeTable) (h : r.covers op = true) :
    ∃ i, decode op = .ok i := by
  obtain ⟨f, hf⟩ := opcodeTable_decodes r hr
  exact ⟨f op, hf op (beq_iff_eq.mp h)⟩

/-- On one word the decoder has one way to reject: the word is unknown (30_encoding.md R75). -/
theorem decode_error {op : Word} {e : DecodeError} (h : decode op = .error e) : e = .unknownOpcode op := by
  unfold decode decodeFamily0 decodeLowZero decodeFamily8 decodeFamilyE decodeFamilyF at h
  repeat' split at h
  all_goals cases h
  all_goals rfl

/-- A word is unknown exactly when no row covers it. -/
theorem decode_eq_unknown_iff {op : Word} :
    decode op = .error (.unknownOpcode op) ↔ ∀ r ∈ opcodeTable, r.covers op = false := by
  constructor
  · intro hd r hr
    rw [← Bool.not_eq_true]
    intro hc
    obtain ⟨i, hi⟩ := decode_of_covers hr hc
    cases hd.symm.trans hi
  · intro hnone
    cases hd : decode op with
    | error e => rw [decode_error hd]
    | ok i =>
      have hc := i.row_covers_encode
      rw [encode_of_decode hd, hnone _ i.row_mem_opcodeTable] at hc
      exact nomatch hc

/-- Settles O2: the row of the decoded instruction is the one row that covers the word. -/
theorem everyWordIsOneInstructionOrUnknown : Obligations.EveryWordIsOneInstructionOrUnknown := by
  intro op
  cases hd : decode op with
  | ok i =>
    have henc := encode_of_decode hd
    have hc : i.row.covers op = true := henc ▸ i.row_covers_encode
    have hmem := i.row_mem_opcodeTable
    exact Or.inl ⟨i, rfl, henc, hmem, hc, fun r hr hcr => opcodeTable_unique hr hmem hcr hc⟩
  | error e =>
    cases decode_error hd
    exact Or.inr ⟨rfl, decode_eq_unknown_iff.mp hd⟩

/-- Settles O13: an unknown word is raised at dispatch, a covered one decodes and runs. -/
theorem unknownWordRaisesUnknownOpcode : Obligations.UnknownWordRaisesUnknownOpcode := by
  intro s op hm hf
  rw [step_running hm]
  constructor
  · exact fun hnone => stepRunning_of_unknown hf (decode_eq_unknown_iff.mpr hnone)
  · rintro ⟨r, hr, hc⟩
    obtain ⟨i, hi⟩ := decode_of_covers hr hc
    exact ⟨i, hi, stepRunning_of_decode hf hi⟩

/-- Settles O3: eleven words given to the decoder. -/
theorem sampleWordsDecode : Obligations.SampleWordsDecode := by
  unfold Obligations.SampleWordsDecode
  decide

end Sys2Proof.Machine

namespace Sys2Proof.Machine

/-! ## The quirk flags (30_encoding.md R77) -/

/-- Both quirk flags changed; `State.withShiftQuirk` and `State.withWrapQuirk` are its two halves
(`State.withShiftQuirk_eq_mapQuirks`, `State.withWrapQuirk_eq_mapQuirks`). -/
def State.mapQuirks (f g : Bool → Bool) (s : State) : State :=
  { s with config := { s.config with
      shiftUsesVy := f s.config.shiftUsesVy
      spriteWraps := g s.config.spriteWraps } }

theorem State.withShiftQuirk_eq_mapQuirks (b : Bool) :
    State.withShiftQuirk b = State.mapQuirks (fun _ => b) id := rfl

theorem State.withWrapQuirk_eq_mapQuirks (b : Bool) :
    State.withWrapQuirk b = State.mapQuirks id fun _ => b := rfl

section
variable (f g : Bool → Bool)

@[simp] theorem State.mapQuirks_reg (r : Reg) (s : State) : (s.mapQuirks f g).reg r = s.reg r := rfl
@[simp] theorem State.mapQuirks_regsUpTo (x : Reg) (s : State) : (s.mapQuirks f g).regsUpTo x = s.regsUpTo x := rfl
@[simp] theorem State.mapQuirks_indexAddr (k : Nat) (s : State) : (s.mapQuirks f g).indexAddr k = s.indexAddr k := rfl
@[simp] theorem State.mapQuirks_returnAddress (s : State) : (s.mapQuirks f g).returnAddress = s.returnAddress := rfl
@[simp] theorem State.mapQuirks_stack (s : State) : (s.mapQuirks f g).stack = s.stack := rfl
@[simp] theorem State.mapQuirks_mem (s : State) : (s.mapQuirks f g).mem = s.mem := rfl
@[simp] theorem State.mapQuirks_lowestKey (s : State) : (s.mapQuirks f g).lowestKey = s.lowestKey := rfl
@[simp] theorem State.mapQuirks_memCapacity (s : State) :
    (s.mapQuirks f g).config.memCapacity = s.config.memCapacity := rfl

@[simp] theorem State.push_mapQuirks (w : Word) (s : State) :
    (s.mapQuirks f g).push w = (s.push w).map (State.mapQuirks f g) := by
  rw [State.push, State.push, apply_ite (Except.map (State.mapQuirks f g))]
  rfl

@[simp] theorem State.pop_mapQuirks (s : State) :
    (s.mapQuirks f g).pop = s.pop.map fun q => (q.1, q.2.mapQuirks f g) := by
  simp only [State.pop, State.mapQuirks_stack]
  cases s.stack <;> rfl

@[simp] theorem State.readRange_mapQuirks (base n : Nat) (s : State) :
    (s.mapQuirks f g).readRange base n = s.readRange base n := rfl

@[simp] theorem State.writeRange_mapQuirks (base : Nat) (bytes : List Byte) (s : State) :
    (s.mapQuirks f g).writeRange base bytes = (s.writeRange base bytes).map (State.mapQuirks f g) := by
  simp only [State.writeRange, State.mapQuirks_memCapacity, State.mapQuirks_mem]
  cases checkRange base bytes.length s.config.memCapacity <;> rfl

@[simp] theorem State.takeKey_mapQuirks (x : Reg) (k : Key) (s : State) :
    (s.mapQuirks f g).takeKey x k = (s.takeKey x k).mapQuirks f g := by
  rw [State.takeKey, State.takeKey, State.consumeKey, State.consumeKey, apply_ite (State.mapQuirks f g)]
  rfl

@[simp] theorem State.setRegs_mapQuirks (k : Nat) (bs : List Byte) (s : State) :
    State.setRegs k bs (s.mapQuirks f g) = (State.setRegs k bs s).mapQuirks f g := by
  induction bs generalizing k s with
  | nil => rfl
  | cons b bs ih =>
    unfold State.setRegs
    split
    · next hk => exact ih (k + 1) (s.setReg ⟨k, hk⟩ b)
    · rfl

theorem State.flipAll_mapQuirks (ps : List (Nat × Nat)) (s : State) :
    State.flipAll ps (s.mapQuirks f g) = (State.flipAll ps s).mapQuirks f g := by
  induction ps generalizing s with
  | nil => rfl
  | cons p ps ih =>
    obtain ⟨x, y⟩ := p
    rw [State.flipAll_cons, State.flipAll_cons, ← ih, apply_ite (State.mapQuirks f g)]
    rfl

/-- Which cells a sprite flips does not depend on the shift flag. -/
theorem spritePixels_mapQuirks (s : State) (ox ty : Nat) (rows : List Byte) :
    spritePixels (s.mapQuirks f id).config ox ty rows = spritePixels s.config ox ty rows := by
  induction rows generalizing ty with
  | nil => rfl
  | cons b rows ih => exact congrArg (rowPixels s.config ox ty b ++ ·) (ih (ty + 1))

theorem State.drawSprite_mapQuirks (x y : Reg) (rows : List Byte) (s : State) :
    (s.mapQuirks f id).drawSprite x y rows = (s.drawSprite x y rows).mapQuirks f id := by
  rw [State.drawSprite, spritePixels_mapQuirks]
  exact congrArg State.displayPresent (State.flipAll_mapQuirks f id _ (s.setReg VF 0#8))

theorem finish_skipIf_mapQuirks (c : Bool) (s : State) :
    finish (s.mapQuirks f g) ((s.mapQuirks f g).skipIf c) = mapNext (State.mapQuirks f g) (finish s (s.skipIf c)) := by
  cases c <;> rfl

variable {f g}

/-- An instruction does the same whatever the quirk flags it does not read hold. -/
theorem exec_mapQuirks {i : Instr} (hf : i.readsShiftQuirk = true → f = id) (hg : i.readsWrapQuirk = true → g = id)
    (s : State) : exec i (s.mapQuirks f g) = mapNext (State.mapQuirks f g) (exec i s) := by
  cases i with
  | shr | shl => obtain rfl := hf rfl; rfl
  | drw x y n =>
    obtain rfl := hg rfl
    simp only [exec, execDrw, State.mapQuirks_indexAddr, State.readRange_mapQuirks, State.drawSprite_mapQuirks]
    cases s.readRange (s.indexAddr 0) n.toNat <;> rfl
  | seByte | sneByte | seReg | sneReg | skp | sknp => exact finish_skipIf_mapQuirks f g _ s
  | ret =>
    simp only [exec, execRet, State.pop_mapQuirks]
    cases s.pop <;> rfl
  | call nnn =>
    simp only [exec, execCall, State.mapQuirks_returnAddress, State.push_mapQuirks]
    cases s.push s.returnAddress <;> rfl
  | ldVxK x =>
    simp only [exec, execLdVxK, State.mapQuirks_lowestKey, State.takeKey_mapQuirks]
    cases s.lowestKey <;> rfl
  | ldB x =>
    simp only [exec, execLdB, State.mapQuirks_indexAddr, State.mapQuirks_reg, State.writeRange_mapQuirks]
    cases s.writeRange (s.indexAddr 0) (decimalDigits (s.reg x)) <;> rfl
  | stRegs x =>
    simp only [exec, execStRegs, State.mapQuirks_indexAddr, State.mapQuirks_regsUpTo, State.writeRange_mapQuirks]
    cases s.writeRange (s.indexAddr 0) (s.regsUpTo x) <;> rfl
  | ldRegs x =>
    simp only [exec, execLdRegs, State.mapQuirks_indexAddr, State.readRange_mapQuirks, State.setRegs_mapQuirks]
    cases s.readRange (s.indexAddr 0) (x.val + 1) <;> rfl
  | _ => rfl

end

/-- Settles O22: each flag is changed with the other left as it is. -/
theorem quirkFlagsChangeOnlyShiftsAndDraw : Obligations.QuirkFlagsChangeOnlyShiftsAndDraw := by
  intro i s b
  rw [State.withShiftQuirk_eq_mapQuirks, State.withWrapQuirk_eq_mapQuirks]
  constructor
  · intro hi
    exact exec_mapQuirks (by simp [hi]) (fun _ => rfl) s
  · intro hi
    exact exec_mapQuirks (fun _ => rfl) (by simp [hi]) s

end Sys2Proof.Machine

namespace Sys2Proof.Machine

/-! ## Display calls (40_display.md R100) -/

/-- The calls that flip the cells `ps` in order, each with what it returns, on the grid `g`. -/
def flipEvents : Grid → List (Nat × Nat) → List DisplayEvent
  | _, [] => []
  | g, (x, y) :: ps => .flip x y (g.cell x y) :: flipEvents (g.flip x y) ps

theorem flipEvents_targets (g : Grid) (ps : List (Nat × Nat)) :
    (flipEvents g ps).map DisplayEvent.target = ps.map some := by
  induction ps generalizing g with
  | nil => rfl
  | cons p ps ih => exact congrArg (some p :: ·) (ih _)

theorem reportsTruly_flipEvents (g : Grid) (ps : List (Nat × Nat)) : reportsTruly g (flipEvents g ps) := by
  induction ps generalizing g with
  | nil => trivial
  | cons p ps ih => exact ⟨rfl, ih _⟩

theorem replay_flipEvents (g : Grid) (ps : List (Nat × Nat)) :
    replay g (flipEvents g ps) = ps.foldl (fun g p => g.flip p.1 p.2) g := by
  induction ps generalizing g with
  | nil => rfl
  | cons p ps ih => exact ih _

theorem replay_append (g : Grid) (es fs : List DisplayEvent) : replay g (es ++ fs) = replay (replay g es) fs :=
  List.foldl_append

theorem reportsTruly_append {g : Grid} {es fs : List DisplayEvent} (he : reportsTruly g es)
    (hf : reportsTruly (replay g es) fs) : reportsTruly g (es ++ fs) := by
  induction es generalizing g with
  | nil => exact hf
  | cons e es ih =>
    cases e with
    | flip x y wasOn => exact ⟨he.1, ih he.2 hf⟩
    | clear | present => exact ih he hf

theorem State.flipAll_events (ps : List (Nat × Nat)) (s : State) :
    (State.flipAll ps s).events = s.events ++ flipEvents s.grid ps := by
  induction ps generalizing s with
  | nil => exact (List.append_nil _).symm
  | cons p ps ih =>
    obtain ⟨x, y⟩ := p
    rw [State.flipAll_cons, ih, flipEvents]
    split <;> simp

/-- VF is 1 after a run of flips exactly when one of its calls collided or VF was 1 before. -/
theorem State.flipAll_vf_events (ps : List (Nat × Nat)) (s : State) :
    (State.flipAll ps s).reg VF =
      if (flipEvents s.grid ps).any DisplayEvent.collided = true then 1#8 else s.reg VF := by
  induction ps generalizing s with
  | nil => rfl
  | cons p ps ih =>
    obtain ⟨x, y⟩ := p
    rw [State.flipAll_cons, ih, flipEvents, List.any_cons, DisplayEvent.collided]
    split <;> simp [*]

/-! ## The cells of a sprite (40_display.md R102) -/

/-- The cell that the pixel in row `rc.1` and column `rc.2` of the sprite at `I` flips, if its bit is set. -/
def State.spritePixel (ox oy : Nat) (s : State) (rc : Nat × Nat) : Option (Nat × Nat) :=
  if (s.mem.read (s.i.toNat + rc.1)).getLsbD (7 - rc.2) = true then pixelTarget s.config (ox + rc.2) (oy + rc.1)
  else none

theorem spritePixels_map_range (c : Config) (ox oy n : Nat) (row : Nat → Byte) :
    spritePixels c ox oy ((List.range n).map row) =
      (List.range n).flatMap fun k => rowPixels c ox (oy + k) (row k) := by
  induction n generalizing oy row with
  | zero => rfl
  | succ n ih =>
    rw [List.range_succ_eq_map, List.map_cons, List.map_map, List.flatMap_cons, List.flatMap_map, spritePixels, ih]
    simp only [Function.comp_apply, Nat.add_zero, Nat.succ_eq_add_one, Nat.add_assoc, Nat.add_comm 1]

/-- `pixelTarget` by the pixels that have a cell, as `State.drawnCells` writes it. -/
theorem pixelTarget_eq (c : Config) (tx ty : Nat) :
    pixelTarget c tx ty =
      if c.spriteWraps = true then some (tx % c.displayWidth, ty % c.displayHeight)
      else if tx < c.displayWidth ∧ ty < c.displayHeight then some (tx, ty) else none := by
  simp only [pixelTarget, ← Nat.not_lt, ← not_and_or, ite_not]

theorem State.drawnCells_eq_flatMap (x y : Reg) (n : Nibble) (s : State) :
    s.drawnCells x y n = (List.range n.toNat).flatMap fun row =>
      (List.range 8).filterMap fun col => s.spritePixel (s.originX x) (s.originY y) (row, col) := by
  simp only [State.drawnCells, State.spritePixel, pixelTarget_eq, State.originX, State.originY]

theorem State.drawnCells_eq_filterMap (x y : Reg) (n : Nibble) (s : State) :
    s.drawnCells x y n =
      (List.range n.toNat ×ˢ List.range 8).filterMap (s.spritePixel (s.originX x) (s.originY y)) := by
  rw [State.drawnCells_eq_flatMap]
  simp only [SProd.sprod, List.product, List.filterMap_flatMap, List.filterMap_map, Function.comp_def]

theorem State.spritePixels_eq_drawnCells (x y : Reg) (n : Nibble) (s : State) :
    spritePixels s.config (s.originX x) (s.originY y) ((List.range n.toNat).map fun k => s.mem.read (s.i.toNat + k)) =
      s.drawnCells x y n := by
  rw [spritePixels_map_range, State.drawnCells_eq_flatMap]
  rfl

theorem State.mem_drawnCells {x y : Reg} {n : Nibble} {s : State} {p : Nat × Nat} :
    p ∈ s.drawnCells x y n ↔ ∃ row col, row < n.toNat ∧ col < 8 ∧
      (s.mem.read (s.i.toNat + row)).getLsbD (7 - col) = true ∧
      pixelTarget s.config (s.originX x + col) (s.originY y + row) = some p := by
  simp only [State.drawnCells_eq_filterMap, List.mem_filterMap, Prod.exists, List.mem_product,
    List.mem_range, State.spritePixel, Option.ite_none_right_eq_some, and_assoc]

/-- The cells a sprite flips depend on two registers, `I`, the memory and the configuration. -/
theorem State.drawnCells_congr {x y : Reg} {s t : State} {w : Part → Prop} (h : KeepsAllBut w s t) (hx : ¬w (.reg x))
    (hy : ¬w (.reg y)) (hi : ¬w .index) (hm : ∀ a, ¬w (.byte a)) (hc : ¬w .config) (n : Nibble) :
    t.drawnCells x y n = s.drawnCells x y n := by
  have ex : t.reg x = s.reg x := h _ hx
  have ey : t.reg y = s.reg y := h _ hy
  have ei : t.i = s.i := h _ hi
  have em (a : Nat) : t.mem.read a = s.mem.read a := h _ (hm a)
  have ec : t.config = s.config := h _ hc
  simp only [State.drawnCells, ex, ey, ei, em, ec]

theorem pixelTarget_lt {c : Config} (hw : 0 < c.displayWidth) (hh : 0 < c.displayHeight) {tx ty : Nat} {p : Nat × Nat}
    (h : pixelTarget c tx ty = some p) : p.1 < c.displayWidth ∧ p.2 < c.displayHeight := by
  rw [pixelTarget_eq] at h
  split at h
  · cases h
    exact ⟨Nat.mod_lt _ hw, Nat.mod_lt _ hh⟩
  · obtain ⟨hin, rfl⟩ := Option.ite_none_right_eq_some.mp h |>.imp_right Option.some.inj
    exact hin

theorem Config.display_pos {c : Config} (h : c.valid = true) : 0 < c.displayWidth ∧ 0 < c.displayHeight := by
  simp only [Config.valid, Bool.and_eq_true, decide_eq_true_eq] at h
  exact ⟨h.1.2, h.2⟩

theorem add_mod_left_cancel {o w a b : Nat} (ha : a < w) (hb : b < w) (h : (o + a) % w = (o + b) % w) : a = b :=
  Nat.ModEq.eq_of_lt_of_lt (Nat.ModEq.add_left_cancel' o h) ha hb

/-- No two pixels of a sprite land on the same cell where it is clipped, or where it wraps and is no larger than the
grid. -/
theorem pixelTarget_inj {c : Config} {n : Nat} (hc : c.spriteWraps = true → 8 ≤ c.displayWidth ∧ n ≤ c.displayHeight)
    {ox oy row row' col col' : Nat} {p : Nat × Nat} (hr : row < n) (hr' : row' < n) (hcol : col < 8) (hcol' : col' < 8)
    (h : pixelTarget c (ox + col) (oy + row) = some p) (h' : pixelTarget c (ox + col') (oy + row') = some p) :
    row = row' ∧ col = col' := by
  rw [pixelTarget_eq] at h h'
  by_cases hw : c.spriteWraps = true
  · obtain ⟨h8, hn⟩ := hc hw
    simp only [hw, if_true] at h h'
    obtain ⟨e1, e2⟩ := Prod.mk.inj (Option.some.inj (h.trans h'.symm))
    exact ⟨add_mod_left_cancel (hr.trans_le hn) (hr'.trans_le hn) e2,
      add_mod_left_cancel (hcol.trans_le h8) (hcol'.trans_le h8) e1⟩
  · simp only [hw, if_false, Option.ite_none_right_eq_some, Option.some.injEq, Bool.false_eq_true] at h h'
    obtain ⟨e1, e2⟩ := Prod.mk.inj (h.2.trans h'.2.symm)
    omega

theorem State.drawnCells_nodup {x y : Reg} {n : Nibble} {s : State}
    (hc : s.config.spriteWraps = true → 8 ≤ s.config.displayWidth ∧ n.toNat ≤ s.config.displayHeight) :
    (s.drawnCells x y n).Nodup := by
  have hprod : (List.range n.toNat ×ˢ List.range 8).Nodup := List.nodup_range.product List.nodup_range
  rw [State.drawnCells_eq_filterMap, List.Nodup, List.pairwise_filterMap]
  refine hprod.imp_of_mem ?_
  rintro ⟨row, col⟩ ⟨row', col'⟩ hm hm' hne p hp p' hp' rfl
  simp only [List.mem_product, List.mem_range] at hm hm'
  simp only [State.spritePixel, Option.ite_none_right_eq_some] at hp hp'
  obtain ⟨rfl, rfl⟩ := pixelTarget_inj hc hm.1 hm'.1 hm.2 hm'.2 hp.2 hp'.2
  exact hne rfl

/-! ## Flipping twice -/

theorem Grid.flip_flip_self (g : Grid) (x y : Nat) : (g.flip x y).flip x y = g := by
  have hid : (fun c : Bool => !c) ∘ (fun c => !c) = id := funext Bool.not_not
  have hrow : (fun row : List Bool => row.modify x fun c => !c) ∘ (fun row => row.modify x fun c => !c) = id :=
    funext fun row => by simp only [Function.comp_apply, List.modify_modify_eq, hid, List.modify_id, id_eq]
  rw [Grid.flip, Grid.flip, List.modify_modify_eq, hrow, List.modify_id]

theorem Grid.flip_right_comm (g : Grid) (x y a b : Nat) : (g.flip x y).flip a b = (g.flip a b).flip x y := by
  by_cases hy : y = b
  · subst hy
    simp only [Grid.flip, List.modify_modify_eq]
    congr 1
    funext row
    by_cases hx : x = a
    · rw [hx]
    · exact List.modify_modify_ne _ _ row hx
  · exact List.modify_modify_ne _ _ g hy

/-- Flips commute, so each flip of the second run undoes its flip of the first. -/
theorem Grid.foldl_flip_twice (ps : List (Nat × Nat)) (g : Grid) :
    ps.foldl (fun g p => g.flip p.1 p.2) (ps.foldl (fun g p => g.flip p.1 p.2) g) = g := by
  have : RightCommutative fun (g : Grid) (p : Nat × Nat) => g.flip p.1 p.2 :=
    ⟨fun g p q => g.flip_right_comm p.1 p.2 q.1 q.2⟩
  induction ps with
  | nil => rfl
  | cons p ps ih => rw [List.foldl_cons, List.foldl_cons_eq_apply_foldl, Grid.flip_flip_self, ih]

/-! ## What `Dxyn` leaves (40_display.md R102) -/

/-- The state `Dxyn` leaves where its rows are within the capacity (`exec_drw_of_fits`). -/
def State.drawn (x y : Reg) (n : Nibble) (s : State) : State :=
  (s.drawSprite x y ((List.range n.toNat).map fun k => s.mem.read (s.i.toNat + k))).advancePc

theorem exec_drw_of_fits {x y : Reg} {n : Nibble} {s : State}
    (h : n.toNat = 0 ∨ s.i.toNat + n.toNat ≤ s.config.memCapacity) : exec (.drw x y n) s = .next (s.drawn x y n) := by
  rcases exec_drw s x y n with ⟨_, he⟩ | ⟨a, ha, _⟩
  · exact he
  · rw [checkRange_eq_none.mpr h] at ha
    exact nomatch ha

section
variable (x y : Reg) (n : Nibble) (s : State)

theorem State.drawn_eq_flipAll :
    s.drawn x y n = (State.flipAll (s.drawnCells x y n) (s.setReg VF 0#8)).displayPresent.advancePc := by
  rw [State.drawn, State.drawSprite, State.spritePixels_eq_drawnCells]

theorem State.drawn_keeps : KeepsAllBut (Parts [.pc, .reg VF, .grid, .events]) s (s.drawn x y n) :=
  ((s.drawSprite_keeps x y _).mono (by simp +contextual)).advancePc (by simp)

theorem State.drawn_pc : (s.drawn x y n).pc = s.pc + 2#16 := by
  rw [State.drawn, State.advancePc_pc, s.drawSprite_keeps x y _ .pc (by simp)]

theorem State.drawn_grid :
    (s.drawn x y n).grid = (s.drawnCells x y n).foldl (fun g p => g.flip p.1 p.2) s.grid := by
  rw [State.drawn_eq_flipAll, State.advancePc_grid, State.displayPresent_grid, State.flipAll_grid, State.setReg_grid]

theorem State.drawn_events :
    (s.drawn x y n).events = s.events ++ flipEvents s.grid (s.drawnCells x y n) ++ [.present] := by
  rw [State.drawn_eq_flipAll, State.advancePc_events, State.displayPresent_events, State.flipAll_events]
  rfl

theorem State.drawn_vf :
    (s.drawn x y n).reg VF =
      if (flipEvents s.grid (s.drawnCells x y n)).any DisplayEvent.collided = true then 1#8 else 0#8 := by
  rw [State.drawn_eq_flipAll, State.advancePc_reg, State.displayPresent_reg, State.flipAll_vf_events,
    State.setReg_reg_self, State.setReg_grid]

theorem State.drawn_vf_bit : (s.drawn x y n).reg VF = 1#8 ∨ (s.drawn x y n).reg VF = 0#8 := by
  rw [State.drawn_vf]
  exact ite_eq_or_eq _ _ _

variable {x y n s}

/-- Where no cell is flipped twice, the cells flipped are those toggled. -/
theorem State.drawn_cell (hn : (s.drawnCells x y n).Nodup) {w h a b : Nat} (hg : s.grid.hasSize w h = true)
    (ha : a < w) (hb : b < h) :
    (s.drawn x y n).grid.cell a b =
      if (a, b) ∈ s.drawnCells x y n then !s.grid.cell a b else s.grid.cell a b := by
  simp only [State.drawn_grid, Grid.cell_foldl_flip hn, Grid.inside_of_hasSize hg, ha, hb, decide_true, Bool.and_true,
    and_true]

theorem State.drawn_vf_eq_one (hn : (s.drawnCells x y n).Nodup) :
    (s.drawn x y n).reg VF = 1#8 ↔ ∃ p ∈ s.drawnCells x y n, s.grid.cell p.1 p.2 = true := by
  rw [State.drawn_eq_flipAll, State.advancePc_reg, State.displayPresent_reg, State.flipAll_vf_nodup hn,
    State.setReg_reg_self, State.setReg_grid]
  simp

theorem State.mem_drawnCells_of_clipped (hw : s.config.spriteWraps = false) {cx cy : Nat} :
    (cx, cy) ∈ s.drawnCells x y n ↔ cx < s.config.displayWidth ∧ cy < s.config.displayHeight ∧
      s.spriteCovers n.toNat (s.originX x) (s.originY y) cx cy = true := by
  simp only [State.mem_drawnCells, pixelTarget_eq, hw, Bool.false_eq_true, if_false, Option.ite_none_right_eq_some,
    Option.some.injEq, Prod.mk.injEq, State.spriteCovers, Bool.and_eq_true, decide_eq_true_eq]
  constructor
  · rintro ⟨row, col, hrow, hcol, hbit, ⟨hx, hy⟩, rfl, rfl⟩
    exact ⟨hx, hy, ⟨⟨⟨by omega, by omega⟩, by omega⟩, by omega⟩, by simpa only [Nat.add_sub_cancel_left] using hbit⟩
  · rintro ⟨hx, hy, ⟨⟨⟨hx0, hx8⟩, hy0⟩, hyn⟩, hbit⟩
    exact ⟨_, _, by omega, by omega, hbit, by omega, by omega, by omega⟩

theorem State.mem_drawnCells_of_wrapped (hw : s.config.spriteWraps = true) {cx cy : Nat} :
    (cx, cy) ∈ s.drawnCells x y n ↔
      ∃ row col, s.spriteWrapsOnto n.toNat (s.originX x) (s.originY y) cx cy row col := by
  simp only [State.mem_drawnCells, pixelTarget_eq, hw, if_true, Option.some.injEq, Prod.mk.injEq,
    State.spriteWrapsOnto]

end

/-- Settles O28: the one display call of `00E0` is the clear. -/
theorem clearScreenTurnsEveryCellOff : Obligations.ClearScreenTurnsEveryCellOff := by
  refine ⟨decodesAs_cls, fun s => ⟨_, exec_cls s, s.grid.cell_clear, fun w h => Grid.hasSize_clear, rfl, rfl, ?_⟩⟩
  exact (s.displayClear_keeps.mono (by simp +contextual)).advancePc (by simp)

/-- Settles O29: the flips are the events of the run of flips over the sprite's cells. -/
theorem drawFlipsTheSpritesCellsInOrder : Obligations.DrawFlipsTheSpritesCellsInOrder := by
  refine ⟨decodesAs_drw, fun x y n s => ⟨fun hfit => ?_, fun k => (rangeChecked_drw x y n s).raises_lowest⟩⟩
  refine ⟨_, flipEvents s.grid (s.drawnCells x y n), exec_drw_of_fits hfit, flipEvents_targets _ _,
    reportsTruly_flipEvents _ _, s.drawn_events x y n, ?_, s.drawn_vf x y n, s.drawn_pc x y n, s.drawn_keeps x y n⟩
  rw [replay_flipEvents, State.drawn_grid]

/-- Settles O30: without wrap no cell is flipped twice, and those flipped are those the sprite covers. -/
theorem drawWithoutWrapTogglesTheCoveredCells : Obligations.DrawWithoutWrapTogglesTheCoveredCells := by
  rintro x y n s _ _ ox oy rfl rfl hw hg hfit hox hoy
  obtain rfl : ox = s.originX x := hox
  obtain rfl : oy = s.originY y := hoy
  have hn : (s.drawnCells x y n).Nodup := State.drawnCells_nodup (by simp [hw])
  refine ⟨_, exec_drw_of_fits (Or.inr hfit), fun cx hx cy hy => ?_, s.drawn_vf_bit x y n, ?_⟩
  · simp only [State.drawn_cell hn hg hx hy, State.mem_drawnCells_of_clipped hw, hx, hy, true_and]
    cases s.spriteCovers n.toNat (s.originX x) (s.originY y) cx cy <;> simp
  · simp only [State.drawn_vf_eq_one hn, Prod.exists, State.mem_drawnCells_of_clipped hw, and_assoc, exists_and_left]

/-- Settles O31: with wrap on a grid no smaller than the sprite no cell is flipped twice, and those flipped are those
the sprite wraps onto. -/
theorem drawWithWrapTogglesTheWrappedCells : Obligations.DrawWithWrapTogglesTheWrappedCells := by
  rintro x y n s _ _ ox oy rfl rfl hw hg h8 hrows - hfit hox hoy
  obtain rfl : ox = s.originX x := hox
  obtain rfl : oy = s.originY y := hoy
  have hn : (s.drawnCells x y n).Nodup := State.drawnCells_nodup fun _ => ⟨h8, hrows⟩
  refine ⟨_, exec_drw_of_fits (Or.inr hfit), fun cx hx cy hy => ?_, s.drawn_vf_bit x y n, ?_⟩
  · rw [State.drawn_cell hn hg hx hy, ← State.mem_drawnCells_of_wrapped hw]
    split <;> simp [*]
  · simp only [State.drawn_vf_eq_one hn, Prod.exists, State.mem_drawnCells_of_wrapped hw, exists_and_right]

/-- Settles O32: the second draw flips the same cells again. -/
theorem drawingTwiceRestoresTheGrid : Obligations.DrawingTwiceRestoresTheGrid := by
  intro x y n s hx hy hfit
  have hk := s.drawn_keeps x y n
  have hi : (s.drawn x y n).i = s.i := hk .index (by simp)
  have hc : (s.drawn x y n).config = s.config := hk .config (by simp)
  have hcells : (s.drawn x y n).drawnCells x y n = s.drawnCells x y n :=
    State.drawnCells_congr hk (by simpa using hx) (by simpa using hy) (by simp) (by simp) (by simp) n
  refine ⟨_, _, exec_drw_of_fits (Or.inr hfit), exec_drw_of_fits (Or.inr (by rwa [hi, hc])), ?_, ?_⟩
  · rw [State.drawn_grid, hcells, State.drawn_grid, Grid.foldl_flip_twice]
  · intro hw hg hne hoff
    have hn : (s.drawnCells x y n).Nodup := State.drawnCells_nodup (by simp [hw])
    have hfirst : (s.drawn x y n).reg VF ≠ 1#8 := by
      rw [Ne, State.drawn_vf_eq_one hn]
      rintro ⟨p, hp, hon⟩
      exact nomatch (hoff p hp).symm.trans hon
    refine ⟨(s.drawn_vf_bit x y n).resolve_left hfirst, ?_⟩
    obtain ⟨⟨cx, cy⟩, hp⟩ := List.exists_mem_of_ne_nil _ hne
    rw [State.drawn_vf_eq_one (by rwa [hcells]), hcells]
    refine ⟨(cx, cy), hp, ?_⟩
    obtain ⟨hcx, hcy, -⟩ := (State.mem_drawnCells_of_clipped hw).mp hp
    rw [State.drawn_cell hn hg hcx hcy, if_pos hp, hoff _ hp]
    rfl

/-! ## The display calls of a step (40_display.md R100) -/

/-- The display calls made from `s` to `t` stand in the events and account for the grid; each flips a cell of the
grid where the configuration is valid. -/
def AccountsForDisplay (s t : State) : Prop :=
  ∃ es, t.events = s.events ++ es ∧ t.grid = replay s.grid es ∧ reportsTruly s.grid es ∧
    (s.config.valid = true →
      ∀ e ∈ es, ∀ p, e.target = some p → p.1 < s.config.displayWidth ∧ p.2 < s.config.displayHeight)

theorem AccountsForDisplay.of_kept {w : Part → Prop} {s t : State} (h : KeepsAllBut w s t) (hg : ¬w .grid)
    (he : ¬w .events) : AccountsForDisplay s t :=
  ⟨[], (h _ he).trans (List.append_nil _).symm, h _ hg, trivial, fun _ _ hm => nomatch hm⟩

theorem State.displayClear_accounts (s : State) : AccountsForDisplay s s.displayClear.advancePc :=
  ⟨[.clear], rfl, rfl, trivial, by simp [DisplayEvent.target]⟩

theorem State.drawnCells_lt {x y : Reg} {n : Nibble} {s : State} (hv : s.config.valid = true) {p : Nat × Nat}
    (h : p ∈ s.drawnCells x y n) : p.1 < s.config.displayWidth ∧ p.2 < s.config.displayHeight := by
  obtain ⟨row, col, -, -, -, ht⟩ := State.mem_drawnCells.mp h
  exact pixelTarget_lt (Config.display_pos hv).1 (Config.display_pos hv).2 ht

theorem State.drawn_accounts (x y : Reg) (n : Nibble) (s : State) : AccountsForDisplay s (s.drawn x y n) := by
  refine ⟨flipEvents s.grid (s.drawnCells x y n) ++ [.present], ?_, ?_, ?_, fun hv e he p ht => ?_⟩
  · rw [State.drawn_events, List.append_assoc]
  · rw [replay_append, replay_flipEvents, State.drawn_grid]
    rfl
  · exact reportsTruly_append (reportsTruly_flipEvents _ _) trivial
  · have hm : some p ∈ (s.drawnCells x y n).map some := by
      rw [← flipEvents_targets s.grid, ← ht]
      rcases List.mem_append.mp he with he | he
      · exact List.mem_map_of_mem he
      · cases List.mem_singleton.mp he
        exact nomatch ht
    exact State.drawnCells_lt hv (by simpa using hm)

theorem exec_accounts {i : Instr} {s t : State} (h : exec i s = .next t) : AccountsForDisplay s t := by
  cases i with
  | cls => cases h; exact s.displayClear_accounts
  | drw x y n =>
    rcases exec_drw s x y n with ⟨hfit, _⟩ | ⟨_, _, h'⟩
    · cases (exec_drw_of_fits hfit).symm.trans h
      exact s.drawn_accounts x y n
    · cases h'.symm.trans h
      exact .of_kept (s.raise_keeps _) (by simp) (by simp)
  | _ => exact .of_kept (exec_keeps h) (by simp [Instr.mayWrite]) (by simp [Instr.mayWrite])

theorem step_accounts {s t : State} (h : step s = .next t) : AccountsForDisplay s t := by
  cases step_cases h with
  | fetchFails | unknown => exact .of_kept (s.raise_keeps _) (by simp) (by simp)
  | runs op i _ _ _ _ he => exact exec_accounts he
  | waits | faulted => exact .of_kept (KeepsAllBut.refl (fun _ => False) _) id id
  | waitEnds x k => exact .of_kept (s.endWait_keeps x k) (by simp) (by simp)

/-- Settles O25: only `00E0` and `Dxyn` make display calls. -/
theorem displayCallsDetermineTheGrid : Obligations.DisplayCallsDetermineTheGrid := by
  refine ⟨fun s t => step_accounts, fun g w h x y a b wasOn hg hx hy => ⟨g.cell_clear a b, ?_, rfl⟩⟩
  rw [DisplayEvent.apply, Grid.cell_flip, Grid.inside_of_hasSize hg]
  simp [hx, hy]

end Sys2Proof.Machine

namespace Sys2Proof.Machine

/-! ## Control transfers (41_control_flow.md R110 to R113) -/

theorem zextAddr_toNat (nnn : Addr12) : (zextAddr nnn).toNat = nnn.toNat :=
  BitVec.toNat_setWidth_of_le (by omega)

/-- The target of `Bnnn` is an exact sum: at most 0xFFF + 0xFF, it does not wrap at 16 bits. -/
theorem State.jumpV0Target_toNat (nnn : Addr12) (s : State) :
    (s.jumpV0Target nnn).toNat = nnn.toNat + (s.reg 0).toNat := by
  have hreg : (zext16 (s.reg 0)).toNat = (s.reg 0).toNat := BitVec.toNat_setWidth_of_le (by omega)
  have hsum : nnn.toNat + (s.reg 0).toNat < 2 ^ 16 := by
    have := nnn.isLt
    have := (s.reg 0).isLt
    omega
  rw [State.jumpV0Target, BitVec.toNat_add, zextAddr_toNat, hreg, Nat.mod_eq_of_lt hsum]

/-- A call and a return write the stack and `PC`. -/
theorem State.setStack_setPc_keeps (st : List Word) (w : Word) (s : State) :
    KeepsAllBut (Parts [.pc, .stack]) s ((s.setStack st).setPc w) :=
  ((s.setStack_keeps st).of_single (by simp)).trans ((State.setPc_keeps w _).of_single (by simp))

/-- A jump writes `PC`. -/
theorem State.setPc_keeps_parts (w : Word) (s : State) : KeepsAllBut (Parts [.pc]) s (s.setPc w) :=
  (s.setPc_keeps w).of_single (by simp)

/-- Settles O34: the stack has a top, or is empty. -/
theorem returnPopsTheStackIntoPc : Obligations.ReturnPopsTheStackIntoPc := by
  refine ⟨decodesAs_ret, fun s w rest hs => ?_, fun s hs => ?_⟩
  · rcases exec_ret s with ⟨_, _, hs', he⟩ | ⟨hs', _⟩
    · cases hs'.symm.trans hs
      exact ⟨_, he, rfl, rfl, s.setStack_setPc_keeps rest w⟩
    · exact nomatch hs'.symm.trans hs
  · rcases exec_ret s with ⟨_, _, hs', _⟩ | ⟨_, he⟩
    · exact nomatch hs'.symm.trans hs
    · exact he

/-- Settles O35: the stack has room, or is full. -/
theorem callPushesTheReturnAddress : Obligations.CallPushesTheReturnAddress := by
  refine ⟨decodesAs_call, fun nnn s => ?_⟩
  rcases exec_call s nnn with ⟨hroom, he⟩ | ⟨hfull, he⟩
  · exact ⟨fun _ => ⟨_, he, rfl, zextAddr_toNat nnn, s.setStack_setPc_keeps _ _⟩,
      fun hfull => absurd hroom hfull.not_gt⟩
  · exact ⟨fun hroom => absurd hroom hfull.not_gt, fun _ => he⟩

/-- Settles O36: the two targets as numbers. -/
theorem jumpsSetPc : Obligations.JumpsSetPc :=
  ⟨decodesAs_jp, decodesAs_jpV0, fun nnn s =>
    ⟨⟨_, exec_jp s nnn, zextAddr_toNat nnn, s.setPc_keeps_parts _⟩,
      ⟨_, exec_jpV0 s nnn, s.jumpV0Target_toNat nnn, s.setPc_keeps_parts _⟩⟩⟩

end Sys2Proof.Machine

namespace Sys2Proof

/-! ## Families 5 and 9 (30_encoding.md R74, R75) -/

/-- Another low nibble than 0 is in no row of the two families. -/
theorem decodeLowZero_of_fieldN_ne {op : Word} (hn : fieldN op ≠ 0x0#4) (i : Instr) :
    decodeLowZero op i = .error (.unknownOpcode op) := by
  unfold decodeLowZero
  split
  · exact absurd ‹_› hn
  · rfl

theorem decode_family5 {op : Word} (ha : fieldA op = 0x5#4) :
    decode op = decodeLowZero op (.seReg (fieldX op) (fieldY op)) := by
  simp only [decode, ha]

theorem decode_family9 {op : Word} (ha : fieldA op = 0x9#4) :
    decode op = decodeLowZero op (.sneReg (fieldX op) (fieldY op)) := by
  simp only [decode, ha]

end Sys2Proof

namespace Sys2Proof.Machine

/-! ## Skips (42_skips.md R121 to R126) -/

/-- What a skip on equal values leaves in `PC`: the test of the model as an equation of the values. -/
theorem skipTarget_beq (a b : Byte) (far near : Word) :
    (if (a == b) = true then far else near) = if a = b then far else near :=
  if_congr beq_iff_eq rfl rfl

/-- What a skip on different values leaves in `PC`: the two targets of a skip on equal values exchanged. -/
theorem skipTarget_bne (a b : Byte) (far near : Word) :
    (if (a != b) = true then far else near) = if a = b then near else far :=
  (if_congr bne_iff_ne rfl rfl).trans (ite_not (a = b) far near)

/-- Settles O37: each skip writes `PC` alone, and the two tests are each other's negation. -/
theorem byteSkipsCompareRegisterWithByte : Obligations.ByteSkipsCompareRegisterWithByte :=
  ⟨decodesAs_seByte, decodesAs_sneByte, fun x nn s =>
    ⟨⟨_, exec_seByte s x nn, skipTarget_beq _ _ _ _, s.setPc_keeps_parts _⟩,
      ⟨_, exec_sneByte s x nn, skipTarget_bne _ _ _ _, s.setPc_keeps_parts _⟩⟩⟩

/-- Settles O38: as for a byte, and the low nibble of both families is literal. -/
theorem registerSkipsCompareTwoRegisters : Obligations.RegisterSkipsCompareTwoRegisters := by
  refine ⟨decodesAs_seReg, decodesAs_sneReg, fun op ha hn => ?_, fun x y s => ⟨?_, ?_⟩⟩
  · rcases ha with h5 | h9
    · exact (decode_family5 h5).trans (decodeLowZero_of_fieldN_ne hn _)
    · exact (decode_family9 h9).trans (decodeLowZero_of_fieldN_ne hn _)
  · exact ⟨_, exec_seReg s x y, skipTarget_beq _ _ _ _, s.setPc_keeps_parts _⟩
  · exact ⟨_, exec_sneReg s x y, skipTarget_bne _ _ _ _, s.setPc_keeps_parts _⟩

/-- Settles O39: the model's test of the key number `V[x]` is membership in the pressed set, and `ExA1` negates it. -/
theorem keySkipsTestThePressedSet : Obligations.KeySkipsTestThePressedSet := by
  refine ⟨decodesAs_skp, decodesAs_sknp, fun x s down hdown => ?_⟩
  have hskp : s.keyNumberPressed (s.reg x) = true ↔ down := State.keyNumberPressed_eq_true.trans hdown.symm
  have hsknp : (!s.keyNumberPressed (s.reg x)) = true ↔ ¬down := by
    rw [Bool.not_eq_true', ← Bool.not_eq_true, hskp]
  constructor
  · exact ⟨_, exec_skp s x, fun h => if_pos (hskp.mpr h), fun h => if_neg (mt hskp.mp h), s.setPc_keeps_parts _⟩
  · exact ⟨_, exec_sknp s x, fun h => if_neg fun hc => hsknp.mp hc h, fun h => if_pos (hsknp.mpr h),
      s.setPc_keeps_parts _⟩

end Sys2Proof.Machine

namespace Sys2Proof.Machine

/-! ## Arithmetic on bytes (43_alu.md R130) -/

theorem byte_sub_toNat (a b : Byte) : (a - b).toNat = (a.toNat + 256 - b.toNat) % 256 := by
  have := b.isLt
  rw [BitVec.toNat_sub]
  omega

theorem byte_shiftLeft_one_toNat (b : Byte) : (b <<< 1).toNat = 2 * b.toNat % 256 := by
  rw [BitVec.toNat_shiftLeft, Nat.shiftLeft_eq, pow_one, Nat.mul_comm]

theorem byte_shiftRight_one_toNat (b : Byte) : (b >>> 1).toNat = b.toNat / 2 := by
  rw [BitVec.toNat_ushiftRight, Nat.shiftRight_eq_div_pow, pow_one]

/-- A masked byte has no bit that the mask does not have. -/
theorem byte_and_getLsbD_of_mask (a : Byte) {mask : Byte} {b : Nat} (h : mask.getLsbD b = false) :
    (a &&& mask).getLsbD b = false := by
  rw [BitVec.getLsbD_and, h, Bool.and_false]

/-! ## The flags as numbers (10_state.md R30) -/

theorem boolByte_decide (p : Prop) [Decidable p] : boolByte (decide p) = if p then 1#8 else 0#8 :=
  if_congr decide_eq_true_iff rfl rfl

theorem carryFlag_eq (a b : Byte) : carryFlag a b = if 255 < a.toNat + b.toNat then 1#8 else 0#8 :=
  boolByte_decide _

theorem noBorrowFlag_eq (a b : Byte) : noBorrowFlag a b = if b.toNat ≤ a.toNat then 1#8 else 0#8 :=
  boolByte_decide _

theorem shiftedOutRight_toNat (b : Byte) : (shiftedOutRight b).toNat = b.toNat % 2 :=
  (BitVec.toNat_and b 1#8).trans (Nat.and_one_is_mod b.toNat)

/-- The mask `0x80` tests bit 7, set in the upper half of the bytes. -/
theorem and_0x80_ne_zero (b : Byte) : (b &&& 0x80#8 != 0#8) = decide (128 ≤ b.toNat) := by
  have hand : b &&& 0x80#8 = if b.getLsbD 7 then 0x80#8 else 0#8 := BitVec.and_twoPow b 7
  have hmsb : b.getLsbD 7 = decide (128 ≤ b.toNat) := BitVec.msb_eq_decide b
  rw [hand, ← hmsb]
  cases b.getLsbD 7 <;> rfl

theorem shiftedOutLeft_toNat (b : Byte) : (shiftedOutLeft b).toNat = b.toNat / 128 := by
  have := b.isLt
  rw [shiftedOutLeft, and_0x80_ne_zero, boolByte_decide]
  split <;> simp only [BitVec.reduceToNat] <;> omega

/-! ## What an instruction with a result register leaves (10_state.md R24, R25) -/

/-- VF is written last: it holds the flag also where it is the result register. -/
theorem State.setResultAndFlag_vf (x : Reg) (a f : Byte) (s : State) : (s.setResultAndFlag x a f).reg VF = f :=
  State.setReg_reg_self _ VF f

/-- Where VF is not the result register, the result stands beside the flag. -/
theorem State.setResultAndFlag_result {x : Reg} (hx : x ≠ VF) (a f : Byte) (s : State) :
    (s.setResultAndFlag x a f).reg x = a :=
  (State.setReg_reg_ne _ f hx).trans (State.setReg_reg_self s x a)

theorem State.setReg_advancePc_keeps (x : Reg) (a : Byte) (s : State) :
    KeepsAllBut (Parts [.pc, .reg x]) s (s.setReg x a).advancePc :=
  ((s.setReg_keeps x a).of_single (by simp)).advancePc (by simp)

theorem State.setResultAndFlag_advancePc_keeps (x : Reg) (a f : Byte) (s : State) :
    KeepsAllBut (Parts [.pc, .reg x, .reg VF]) s (s.setResultAndFlag x a f).advancePc :=
  ((s.setResultAndFlag_keeps x a f).mono fun _ => List.mem_cons_of_mem _).advancePc (by simp)

theorem State.nextDraw_setReg_advancePc_keeps (x : Reg) (a : Byte) (s : State) :
    KeepsAllBut (Parts [.pc, .reg x, .draws]) s (s.nextDraw.setReg x a).advancePc :=
  ((s.nextDraw_keeps.of_single (by simp)).trans ((State.setReg_keeps x a _).of_single (by simp))).advancePc (by simp)

/-! ## Register, arithmetic, logic, shift and random instructions (43_alu.md R131 to R142) -/

/-- Settles O40: each writes `V[x]` alone, and a sum of bytes is taken modulo 256. -/
theorem byteLoadAndAdd : Obligations.ByteLoadAndAdd := by
  refine ⟨decodesAs_ldByte, decodesAs_addByte, fun x nn s => ⟨?_, ?_⟩⟩
  · exact ⟨_, exec_ldByte s x nn, s.setReg_reg_self x _, rfl, s.setReg_advancePc_keeps x _⟩
  · have hsum : ((s.setReg x (s.reg x + nn)).reg x).toNat = ((s.reg x).toNat + nn.toNat) % 256 := by
      rw [State.setReg_reg_self, BitVec.toNat_add]
    exact ⟨_, exec_addByte s x nn, hsum, rfl, s.setReg_advancePc_keeps x _⟩

/-- Settles O41: each writes `V[x]` alone, bit by bit from the two operands. -/
theorem copyAndLogic : Obligations.CopyAndLogic := by
  refine ⟨decodesAs_ldReg, decodesAs_orReg, decodesAs_andReg, decodesAs_xorReg, fun x y s => ⟨?_, ?_, ?_, ?_⟩⟩
  · exact ⟨_, exec_ldReg s x y, s.setReg_reg_self x _, rfl, s.setReg_advancePc_keeps x _⟩
  · refine ⟨_, exec_orReg s x y, rfl, s.setReg_advancePc_keeps x _, fun b _ => ?_⟩
    rw [State.advancePc_reg, State.setReg_reg_self, BitVec.getLsbD_or]
  · refine ⟨_, exec_andReg s x y, rfl, s.setReg_advancePc_keeps x _, fun b _ => ?_⟩
    rw [State.advancePc_reg, State.setReg_reg_self, BitVec.getLsbD_and]
  · refine ⟨_, exec_xorReg s x y, rfl, s.setReg_advancePc_keeps x _, fun b _ => ?_⟩
    rw [State.advancePc_reg, State.setReg_reg_self]
    exact BitVec.getLsbD_xor

/-- What the five flag-defining instructions of 43_alu.md have in common: the result, the flag written over it where
`x` is 0xF, the advance, and nothing else. -/
theorem exec_resultAndFlag {i : Instr} {s : State} {x : Reg} {a f : Byte}
    (he : exec i s = .next (s.setResultAndFlag x a f).advancePc) :
    ∃ t, exec i s = .next t ∧ (x ≠ VF → t.reg x = a) ∧ t.reg VF = f ∧ t.pc = s.pc + 2#16 ∧
      KeepsAllBut (Parts [.pc, .reg x, .reg VF]) s t :=
  ⟨_, he, fun hx => s.setResultAndFlag_result hx a f, s.setResultAndFlag_vf x a f, rfl,
    s.setResultAndFlag_advancePc_keeps x a f⟩

/-- Settles O42: the sum is taken modulo 256 and the flag compares the exact sum with 255. -/
theorem addSetsCarry : Obligations.AddSetsCarry := by
  refine ⟨decodesAs_addReg, ?_⟩
  rintro x y s _ _ rfl rfl
  obtain ⟨t, he, hres, hflag, hpc, hkeeps⟩ := exec_resultAndFlag (exec_addReg s x y)
  refine ⟨t, he, fun hx => ?_, ?_, hpc, hkeeps⟩
  · rw [hres hx, BitVec.toNat_add]
  · rw [hflag, carryFlag_eq]

/-- Both subtractions: the difference is taken modulo 256 and the flag compares the operands. -/
theorem exec_difference {i : Instr} {s : State} {x : Reg} {a b : Byte}
    (he : exec i s = .next (s.setResultAndFlag x (a - b) (noBorrowFlag a b)).advancePc) :
    ∃ t, exec i s = .next t ∧ (x ≠ VF → (t.reg x).toNat = (a.toNat + 256 - b.toNat) % 256) ∧
      t.reg VF = (if b.toNat ≤ a.toNat then 1#8 else 0#8) ∧ t.pc = s.pc + 2#16 ∧
      KeepsAllBut (Parts [.pc, .reg x, .reg VF]) s t := by
  obtain ⟨t, hnext, hres, hflag, hpc, hkeeps⟩ := exec_resultAndFlag he
  refine ⟨t, hnext, fun hx => ?_, ?_, hpc, hkeeps⟩
  · rw [hres hx, byte_sub_toNat]
  · rw [hflag, noBorrowFlag_eq]

/-- Settles O43: the two subtractions are one with the operands exchanged. -/
theorem subtractionsSetNotBorrow : Obligations.SubtractionsSetNotBorrow := by
  refine ⟨decodesAs_subReg, decodesAs_subn, ?_⟩
  rintro x y s _ _ rfl rfl
  exact ⟨exec_difference (exec_subReg s x y), exec_difference (exec_subn s x y)⟩

/-- Settles O44: a shift by one halves or doubles its source, and the bit shifted out is its lowest or highest. -/
theorem shiftsSetTheBitShiftedOut : Obligations.ShiftsSetTheBitShiftedOut := by
  refine ⟨decodesAs_shr, decodesAs_shl, fun x y s v hv => ?_⟩
  have hsource : v = (s.shiftSource x y).toNat := hv
  subst hsource
  constructor
  · obtain ⟨t, he, hres, hflag, hpc, hkeeps⟩ := exec_resultAndFlag (exec_shr s x y)
    refine ⟨t, he, fun hx => ?_, ?_, hpc, hkeeps⟩
    · rw [hres hx, byte_shiftRight_one_toNat]
    · rw [hflag, shiftedOutRight_toNat]
  · obtain ⟨t, he, hres, hflag, hpc, hkeeps⟩ := exec_resultAndFlag (exec_shl s x y)
    refine ⟨t, he, fun hx => ?_, ?_, hpc, hkeeps⟩
    · rw [hres hx, byte_shiftLeft_one_toNat]
    · rw [hflag, shiftedOutLeft_toNat]

/-- Settles O45: `V[x]` is the byte drawn now under the mask, and the draw is used up. -/
theorem randomByteIsMasked : Obligations.RandomByteIsMasked := by
  refine ⟨decodesAs_rnd, fun x nn s => ?_⟩
  have hvx : (s.nextDraw.setReg x (s.drawnByte &&& nn)).advancePc.reg x = s.drawnByte &&& nn :=
    State.setReg_reg_self _ x _
  refine ⟨_, s.drawnByte, rfl, exec_rnd s x nn, hvx, fun b _ hb => ?_, rfl, rfl,
    s.nextDraw_setReg_advancePc_keeps x _⟩
  rw [hvx, byte_and_getLsbD_of_mask _ hb]

end Sys2Proof.Machine

namespace Sys2Proof.Machine

/-! ## The index register (44_index_memory.md R150 to R152) -/

/-- The mask of an assignment to `I` is a reduction modulo 4096 (10_state.md R26). -/
theorem State.setI_i_toNat (w : Word) (s : State) : (s.setI w).i.toNat = w.toNat % 4096 := by
  rw [State.setI_i, BitVec.toNat_and]
  exact Nat.and_two_pow_sub_one_eq_mod w.toNat 12

/-- The 16-bit sum of `Fx1E` wraps at a multiple of 4096: the value left in `I` is the exact sum modulo 4096. -/
theorem State.indexSum_toNat_mod (x : Reg) (s : State) :
    (s.indexSum x).toNat % 4096 = (s.i.toNat + (s.reg x).toNat) % 4096 := by
  have hreg : (zext16 (s.reg x)).toNat = (s.reg x).toNat := BitVec.toNat_setWidth_of_le (by omega)
  rw [State.indexSum, BitVec.toNat_add, hreg]
  exact Nat.mod_mod_of_dvd _ (by decide)

/-- The same for `Fx29`, whatever the font base. -/
theorem State.glyphAddress_toNat_mod (x : Reg) (s : State) :
    (s.glyphAddress x).toNat % 4096 = (s.config.fontBase + (s.reg x).toNat * 5) % 4096 := by
  rw [State.glyphAddress, BitVec.toNat_ofNat]
  exact Nat.mod_mod_of_dvd _ (by decide)

theorem State.setI_advancePc_keeps (w : Word) (s : State) :
    KeepsAllBut (Parts [.pc, .index]) s (s.setI w).advancePc :=
  ((s.setI_keeps w).of_single (by simp)).advancePc (by simp)

/-- Settles O47: each assigns to `I` through the 12-bit mask, and writes nothing else but `PC`. -/
theorem indexInstructionsSetIModulo4096 : Obligations.IndexInstructionsSetIModulo4096 := by
  refine ⟨decodesAs_ldI, decodesAs_addI, decodesAs_ldF, fun nnn x s => ⟨?_, ?_, ?_⟩⟩
  · refine ⟨_, exec_ldI s nnn, ?_, rfl, s.setI_advancePc_keeps _⟩
    rw [State.advancePc_i, State.setI_i_toNat, zextAddr_toNat, Nat.mod_eq_of_lt nnn.isLt]
  · refine ⟨_, exec_addI s x, ?_, rfl, s.setI_advancePc_keeps _⟩
    rw [State.advancePc_i, State.setI_i_toNat, State.indexSum_toNat_mod]
  · refine ⟨_, exec_ldF s x, ?_, rfl, s.setI_advancePc_keeps _⟩
    rw [State.advancePc_i, State.setI_i_toNat, State.glyphAddress_toNat_mod]

/-! ## Memory from `I` on (44_index_memory.md R153 to R155) -/

/-- Of the two answers of an instruction that checks its range, the first is the one given within the capacity. -/
theorem of_range_fits {base n cap : Nat} {c answer : Prop} {raised : Nat → Prop}
    (h : (c ∧ answer) ∨ ∃ a, checkRange base n cap = some a ∧ raised a) (hfit : base + n ≤ cap) : answer := by
  rcases h with ⟨_, hanswer⟩ | ⟨a, ha, _⟩
  · exact hanswer
  · exact nomatch ha.symm.trans (checkRange_eq_none.mpr (Or.inr hfit))

/-- A store and the advance write the bytes stored and `PC`. -/
theorem State.writeList_advancePc_keeps {base n : Nat} {xs : List Byte} (hn : xs.length = n) (s : State) :
    KeepsAllBut (PartsAndBytes [.pc] base n) s (s.setMem (s.mem.writeList base xs)).advancePc := by
  subst hn
  exact ((s.setMem_writeList_keeps base xs).mono fun _ hp => Or.inr (hp.resolve_left (by simp))).advancePc (by simp)

/-- A load of `V[0]` to `V[x]` and the advance write those registers and `PC`. -/
theorem State.setRegs_advancePc_keeps {x : Reg} {bs : List Byte} (hb : bs.length = x.val + 1) (s : State) :
    KeepsAllBut (PartsAndRegs [.pc] x) s (State.setRegs 0 bs s).advancePc := by
  refine ((State.setRegs_keeps 0 bs s).mono ?_).advancePc (by simp)
  rintro p ⟨r, _, hr, rfl⟩
  exact Or.inr ⟨r, Fin.le_def.mpr (by omega), rfl⟩

/-- The register `Fx55` stores at `I + r` is `V[r]`. -/
theorem State.read_writeList_regsUpTo {x r : Reg} (hr : r ≤ x) {s : State} (hm : s.mem.wf = true) :
    Memory.read (s.mem.writeList s.i.toNat (s.regsUpTo x)) (s.i.toNat + r.val) = s.reg r := by
  have hlen : r.val < (s.regsUpTo x).length := by
    rw [State.regsUpTo_length]
    exact Nat.lt_succ_of_le hr
  rw [Memory.read_writeList_at hlen hm, State.regsUpTo_getElem]

/-- Each digit is below 256, so its byte holds it whole. -/
theorem decimalDigits_toNat (b : Byte) :
    (decimalDigits b).map BitVec.toNat = [b.toNat / 100, b.toNat / 10 % 10, b.toNat % 10] := by
  have hb := b.isLt
  simp only [decimalDigits, List.map_cons, List.map_nil, BitVec.toNat_ofNat, List.cons.injEq, and_true]
  omega

/-- Settles O48: the three digits are read back one by one, or the range check raises its lowest failing address. -/
theorem decimalDigitsAreStored : Obligations.DecimalDigitsAreStored := by
  refine ⟨decodesAs_ldB, ?_⟩
  rintro x s _ rfl
  refine ⟨fun hm hfit => ?_, fun k => (rangeChecked_ldB x s).raises_lowest⟩
  have stored (k : Nat) (hk : k < 3) :
      (Memory.read (s.mem.writeList s.i.toNat (decimalDigits (s.reg x))) (s.i.toNat + k)).toNat =
        [(s.reg x).toNat / 100, (s.reg x).toNat / 10 % 10, (s.reg x).toNat % 10][k] := by
    rw [Memory.read_writeList_at hk hm]
    simp only [← decimalDigits_toNat]
    exact (List.getElem_map BitVec.toNat).symm
  exact ⟨_, of_range_fits (exec_ldB s x) hfit, stored 0 (by decide), stored 1 (by decide), stored 2 (by decide), rfl,
    s.writeList_advancePc_keeps (xs := decimalDigits (s.reg x)) rfl⟩

/-- Settles O49: every byte of the range is the register of its number, or the range check raises. -/
theorem registersAreStoredFromIOn : Obligations.RegistersAreStoredFromIOn := by
  refine ⟨decodesAs_stRegs, fun x s => ⟨fun hm hfit => ?_, fun k hk => ?_⟩⟩
  · exact ⟨_, of_range_fits (exec_stRegs s x) hfit, fun r hr => State.read_writeList_regsUpTo hr hm, rfl,
      s.writeList_advancePc_keeps (s.regsUpTo_length x)⟩
  · exact (rangeChecked_stRegs x s).raises_lowest (Nat.lt_succ_of_le hk)

/-- Settles O50: every register up to `x` is the byte of its number, VF among them, or the range check raises. -/
theorem registersAreLoadedFromIOn : Obligations.RegistersAreLoadedFromIOn := by
  refine ⟨decodesAs_ldRegs, fun x s => ⟨fun hfit => ?_, fun k hk => ?_⟩⟩
  · refine ⟨_, of_range_fits (exec_ldRegs s x) hfit, fun r hr => ?_, ?_, s.setRegs_advancePc_keeps (by simp)⟩
    · rw [State.advancePc_reg, State.setRegs_reg 0 _ s r (Nat.zero_le _) (by simpa using Nat.lt_succ_of_le hr)]
      simp
    · rw [State.advancePc_pc, State.setRegs_keeps 0 _ s .pc (by simp)]
  · exact (rangeChecked_ldRegs x s).raises_lowest (Nat.lt_succ_of_le hk)

/-- Settles O51: the load reads the bytes where the store put the registers, as `I` and the capacity are the same. -/
theorem storeThenLoadRestoresTheRegisters : Obligations.StoreThenLoadRestoresTheRegisters := by
  intro x s hm hfit
  obtain ⟨t, hstore, hstored, _, hkeeps⟩ := (registersAreStoredFromIOn.2 x s).1 hm hfit
  have hti : t.i = s.i := hkeeps .index (by simp)
  have htc : t.config = s.config := hkeeps .config (by simp)
  refine ⟨t, hstore, fun u hui huc hbytes => ?_⟩
  have hufit : u.i.toNat + x.val < u.config.memCapacity := by rwa [hui, huc, hti, htc]
  obtain ⟨w, hload, hloaded, _⟩ := (registersAreLoadedFromIOn.2 x u).1 hufit
  refine ⟨w, hload, fun r hr => ?_⟩
  calc w.reg r = u.mem.read (u.i.toNat + r.val) := hloaded r hr
    _ = t.mem.read (t.i.toNat + r.val) := by rw [hui, hbytes r.val hr]
    _ = s.reg r := by rw [hti, hstored r hr]

end Sys2Proof.Machine

namespace Sys2Proof.Machine

/-! ## Timer and key-wait instructions (45_timers_input.md R160 to R163) -/

theorem State.setDelay_advancePc_keeps (b : Byte) (s : State) :
    KeepsAllBut (Parts [.pc, .delay]) s (s.setDelay b).advancePc :=
  ((s.setDelay_keeps b).of_single (by simp)).advancePc (by simp)

theorem State.setSound_advancePc_keeps (b : Byte) (s : State) :
    KeepsAllBut (Parts [.pc, .sound]) s (s.setSound b).advancePc :=
  ((s.setSound_keeps b).of_single (by simp)).advancePc (by simp)

theorem State.takeKey_advancePc_keeps (x : Reg) (k : Key) (s : State) :
    KeepsAllBut (Parts [.reg x, .pc, .keys]) s (s.takeKey x k).advancePc :=
  ((s.takeKey_keeps x k).mono (by simp +contextual)).advancePc (by simp)

/-- `PC` moves on from where it stood before the key was taken. -/
theorem State.takeKey_advancePc_pc (x : Reg) (k : Key) (s : State) :
    (s.takeKey x k).advancePc.pc = s.pc + 2#16 := by
  rw [State.advancePc_pc, s.takeKey_keeps x k .pc (by simp)]

theorem exec_ldVxK_of_none {s : State} (x : Reg) (h : s.lowestKey = none) :
    exec (.ldVxK x) s = .next (s.setMode (.awaitingKey x)) := by
  obtain ⟨_, he⟩ | ⟨k, hk, _⟩ := exec_ldVxK s x
  · exact he
  · exact nomatch h.symm.trans hk

theorem exec_ldVxK_of_some {s : State} (x : Reg) {k : Key} (h : s.lowestKey = some k) :
    exec (.ldVxK x) s = .next (s.takeKey x k).advancePc := by
  obtain ⟨hk, _⟩ | ⟨j, hj, he⟩ := exec_ldVxK s x
  · exact nomatch h.symm.trans hk
  · cases h.symm.trans hj
    exact he

/-- Settles O52: each copies one byte, whatever its value, and writes nothing else but `PC`. -/
theorem timerInstructionsMoveBytes : Obligations.TimerInstructionsMoveBytes := by
  refine ⟨decodesAs_ldVxDt, decodesAs_ldDtVx, decodesAs_ldStVx, fun x s => ⟨?_, ?_, ?_⟩⟩
  · exact ⟨_, exec_ldVxDt s x, s.setReg_reg_self x _, rfl, s.setReg_advancePc_keeps x _⟩
  · exact ⟨_, exec_ldDtVx s x, rfl, rfl, s.setDelay_advancePc_keeps _⟩
  · exact ⟨_, exec_ldStVx s x, rfl, rfl, s.setSound_advancePc_keeps _⟩

/-- Settles O53: the lowest pressed key decides between suspension and the key taken at once. -/
theorem keyWaitTakesTheLowestKeyOrSuspends : Obligations.KeyWaitTakesTheLowestKeyOrSuspends := by
  refine ⟨decodesAs_ldVxK, fun x s => ⟨fun hnone => ?_, fun k hk hlow => ?_⟩⟩
  · exact exec_ldVxK_of_none x (State.lowestKey_eq_none.mpr hnone)
  · have hlowest : s.lowestKey = some k := State.lowestKey_eq_some.mpr ⟨hk, hlow⟩
    exact ⟨_, exec_ldVxK_of_some x hlowest, s.takeKey_reg x k, s.takeKey_advancePc_pc x k,
      fun j => State.consumeKey_keys k j _, s.takeKey_advancePc_keeps x k⟩

end Sys2Proof.Machine

namespace Sys2Proof.Machine

/-! ## The faulted machine (60_exceptions.md R176, R177; 10_state.md R39) -/

/-- A step that ends in `Faulted(e)` has raised `e`, which on a machine that held `e` already changes nothing. -/
theorem step_eq_raise {s t : State} {e : Error} (h : step s = .next t) (ht : t.mode = .faulted e) : t = s.raise e := by
  cases step_cases h with
  | fetchFails | unknown => cases ht; rfl
  | runs op i _ hm hf hd he =>
    rcases exec_mode_cases he with ⟨e', rfl, _⟩ | ⟨x, _, _, rfl⟩ | hmode
    · cases ht; rfl
    · exact nomatch ht
    · exact nomatch hm.symm.trans (hmode.symm.trans ht)
  | waits x hm => exact nomatch hm.symm.trans ht
  | waitEnds => exact nomatch ht
  | faulted => rw [State.raise, State.setMode, ← ht]

/-- Settles O17: the step has only raised the error, and its reply is read off the mode it leaves. -/
theorem errorsArePrecise : Obligations.ErrorsArePrecise := by
  intro s t e started h ht
  refine ⟨step_eq_raise h ht, ?_⟩
  rw [Session.call_step (n := ⟨s, started⟩) h, ht]
  rfl

/-! ## Ticks (60_exceptions.md R182) -/

@[simp] theorem State.tick_delay (s : State) : s.tick.delay = tickByte s.delay := rfl

@[simp] theorem State.tick_sound (s : State) : s.tick.sound = tickByte s.sound := rfl

theorem tickByte_toNat (b : Byte) : (tickByte b).toNat = b.toNat - 1 := by
  unfold tickByte
  split
  · next h => rw [h]; rfl
  · next h => bv_omega

theorem State.tick_keeps (s : State) : KeepsAllBut (Parts [.delay, .sound]) s s.tick :=
  ((s.setDelay_keeps _).of_single (by simp)).trans ((State.setSound_keeps _ _).of_single (by simp))

/-- Settles O54: both timers go through `tickByte`, and nothing else is written. -/
theorem tickDecrementsBothTimers : Obligations.TickDecrementsBothTimers := fun s =>
  ⟨tickByte_toNat s.delay, tickByte_toNat s.sound, s.tick_keeps⟩

/-- Settles O55, by induction on the number of ticks; the first one leaves each timer one lower. -/
theorem ticksCountTimersDownToZero : Obligations.TicksCountTimersDownToZero := by
  rintro k n _ rfl
  induction k generalizing n with
  | zero => exact ⟨rfl, rfl, rfl, KeepsAllBut.refl _ _⟩
  | succ k ih =>
    obtain ⟨hdelay, hsound, hstarted, hkeeps⟩ := ih (n.call .tick).1
    refine ⟨hdelay.trans ?_, hsound.trans ?_, hstarted, n.core.tick_keeps.trans hkeeps⟩
    · change n.core.tick.delay.toNat - k = _
      rw [State.tick_delay, tickByte_toNat, Nat.sub_sub, Nat.add_comm]
    · change n.core.tick.sound.toNat - k = _
      rw [State.tick_sound, tickByte_toNat, Nat.sub_sub, Nat.add_comm]

/-! ## Host calls to a faulted machine (60_exceptions.md R177, R182; 10_state.md R39; 20_memory.md R62) -/

/-- A `step()` call to a session that has stepped and is faulted changes nothing and reports the error again. -/
theorem Session.call_step_faulted {n : Session} {e : Error} (hm : n.core.mode = .faulted e) (hs : n.started = true) :
    n.call .step = (n, .error e) := by
  rw [Session.call_step (step_faulted hm), hm, ← hs]
  rfl

/-- Of the calls that are no restart only ticks and the host's input change a session that has stepped and is
faulted. -/
theorem Session.call_faulted_keeps {n : Session} {e : Error} (hm : n.core.mode = .faulted e) (hs : n.started = true)
    {c : HostCall} (hc : c.keepsMachine = true) :
    KeepsAllBut (Parts [.delay, .sound, .keys]) n.core (n.call c).1.core := by
  cases c with
  | load bytes offset => rw [Session.call_load_started hs]; exact KeepsAllBut.refl _ _
  | step => rw [Session.call_step_faulted hm hs]; exact KeepsAllBut.refl _ _
  | tick => exact n.core.tick_keeps.mono (by simp +contextual)
  | input p => exact (n.core.setKeys_keeps p).of_single (by simp)
  | restart => exact nomatch hc

/-- The mode is among the parts kept, so the next call meets a faulted machine again. -/
theorem Session.run_faulted_keeps {calls : List HostCall} (hk : ∀ c ∈ calls, c.keepsMachine = true) {n : Session}
    {e : Error} (hm : n.core.mode = .faulted e) (hs : n.started = true) :
    KeepsAllBut (Parts [.delay, .sound, .keys]) n.core (Session.run calls n).core := by
  induction calls generalizing n with
  | nil => exact KeepsAllBut.refl _ _
  | cons c rest ih =>
    obtain ⟨hc, hrest⟩ := List.forall_mem_cons.mp hk
    have hcall := Session.call_faulted_keeps hm hs hc
    have hmode : (n.call c).1.core.mode = .faulted e := (hcall .mode (by simp)).trans hm
    exact hcall.trans (ih hrest hmode (Session.call_started hc hs))

/-- Settles O18: the frame of the calls keeps the mode, and a step in that mode changes nothing. -/
theorem faultedUntilRestart : Obligations.FaultedUntilRestart := by
  intro calls n e hm hs hk
  have hkeeps := Session.run_faulted_keeps hk hm hs
  have hmode : (Session.run calls n).core.mode = .faulted e := (hkeeps .mode (by simp)).trans hm
  exact ⟨hmode, hkeeps, Session.call_step_faulted hmode (Session.run_started hk hs)⟩

end Sys2Proof.Machine

namespace Sys2Proof.Machine

/-! ## Created machines (70_reset_and_hazards.md R190) -/

/-- A list stored from address 0 on in the empty memory reads back, and every address past it reads 0. -/
theorem Memory.read_writeList_nil (xs : List Byte) (a : Nat) :
    Memory.read (Memory.writeList [] 0 xs) a = xs.getD a 0#8 := by
  rw [List.getD_eq_getElem?_getD]
  by_cases h : a < xs.length
  · have hread := Memory.read_writeList_at h (m := []) (a := 0) rfl
    rw [Nat.zero_add] at hread
    rw [hread, List.getElem?_eq_getElem h, Option.getD_some]
  · rw [Memory.read_writeList_outside (Or.inr (by omega)), List.getElem?_eq_none (Nat.le_of_not_lt h)]
    rfl

@[simp] theorem State.launch_mem (c : Config) (l : Launch) :
    (State.launch c l).mem = Memory.writeList [] 0 (l.mem.take c.memCapacity) := rfl

@[simp] theorem State.launch_grid (c : Config) (l : Launch) :
    (State.launch c l).grid = Grid.ofSize c.displayWidth c.displayHeight l.grid := rfl

/-- Below the capacity nothing of the launch's bytes is dropped. -/
theorem State.launch_read {c : Config} {a : Nat} (ha : a < c.memCapacity) (l : Launch) :
    (State.launch c l).mem.read a = l.mem.getD a 0#8 := by
  rw [State.launch_mem, Memory.read_writeList_nil, List.getD_eq_getElem?_getD, List.getElem?_take_of_lt ha, List.getD_eq_getElem?_getD]

theorem Grid.cell_ofSize {w h x y : Nat} (hx : x < w) (hy : y < h) (g : Grid) :
    (Grid.ofSize w h g).cell x y = g.cell x y := by
  simp [Grid.ofSize, Grid.cell, hx, hy]

/-- Settles O4: the bytes and the cells by the two reading lemmas, every other value is the one `State.launch` takes. -/
theorem creationSetsPcModeAndStack : Obligations.CreationSetsPcModeAndStack := by
  rintro c l _ rfl
  exact ⟨rfl, rfl, rfl, fun _ => rfl, zextAddr_toNat l.i, rfl, rfl, rfl, rfl, fun _ ha => State.launch_read ha l,
    fun _ hx _ hy => Grid.cell_ofSize hx hy l.grid⟩

/-- Settles O7, clause by clause of the invariant in `State.launch_inv`. -/
theorem createdMachinesHaveTheInvariant : Obligations.CreatedMachinesHaveTheInvariant :=
  fun _ l hc => State.launch_inv l hc

/-! ## Reset (70_reset_and_hazards.md R190, `ZeroInit`) -/

theorem Grid.ofSize_nil (w h : Nat) : Grid.ofSize w h [] = List.replicate h (List.replicate w false) := by
  simp [Grid.ofSize, Grid.cell, List.map_const']

theorem Grid.cell_replicate_false (w h x y : Nat) :
    Grid.cell (List.replicate h (List.replicate w false)) x y = false := by
  simp only [Grid.cell, List.getD_eq_getElem?_getD, List.getElem?_replicate]
  split
  · simp only [Option.getD_some, List.getElem?_replicate]
    split <;> rfl
  · rfl

/-- A machine launched with the parameters of `ZeroInit` meets it, whatever its configuration. -/
theorem State.launch_zeroInit (c : Config) : (State.launch c Launch.zeroInit).ZeroInit where
  regs r := Vector.getElem_replicate r.isLt
  index := rfl
  delay := rfl
  sound := rfl
  bytes a := by
    rw [State.launch_mem, Launch.zeroInit, List.take_nil]
    rfl
  cells x y := by
    rw [State.launch_grid, Launch.zeroInit, Grid.ofSize_nil, Grid.cell_replicate_false]

/-- Reset and the zero launch write the grid differently, every other field alike. -/
theorem State.reset_eq_launch : State.reset = State.launch Config.default Launch.zeroInit := by
  have hgrid : State.reset.grid = Grid.ofSize 64 32 [] := (Grid.ofSize_nil 64 32).symm
  exact congrArg State.reset.setGrid hgrid

/-- Settles O5: `ZeroInit` is that of the launch. -/
theorem resetIsTheZeroLaunch : Obligations.ResetIsTheZeroLaunch :=
  ⟨State.reset_eq_launch, State.reset_eq_launch ▸ State.launch_zeroInit Config.default⟩

/-- Settles O6: reset is a launch, and the default configuration is valid. -/
theorem resetHasTheInvariant : Obligations.ResetHasTheInvariant := by
  unfold Obligations.ResetHasTheInvariant
  rw [State.reset_eq_launch]
  exact State.launch_inv Launch.zeroInit (by decide)

/-! ## Parked machines (70_reset_and_hazards.md R200; 41_control_flow.md R111) -/

theorem State.setPc_self (s : State) : s.setPc s.pc = s := rfl

/-- A jump to itself leaves the machine as it is. -/
theorem State.Parked.step {s : State} (h : s.Parked) : step s = .next s := by
  obtain ⟨hm, nnn, hf, hpc⟩ := h
  rw [step_running hm, stepRunning_of_decode hf (decode_encode _), exec_jp, hpc, State.setPc_self]

/-- What the fetch reads is no timer. -/
theorem State.tick_fetch (s : State) : s.tick.fetch = s.fetch := rfl

theorem State.Parked.tick {s : State} (h : s.Parked) : s.tick.Parked := by
  obtain ⟨hm, nnn, hf, hpc⟩ := h
  exact ⟨hm, nnn, s.tick_fetch.trans hf, hpc⟩

/-- Settles O26: the step is the jump to itself, and the tick touches neither the mode nor the fetch. -/
theorem parkedMachineStaysParked : Obligations.ParkedMachineStaysParked :=
  fun s h => ⟨h.step, h.tick, s.tick_keeps⟩

end Sys2Proof.Machine
